-- ==== Sys2Proof/Word.lean ====
section
/-! DEFINITION. The unsigned values of the engine (00_scope.md R9, R11, R13): 32-bit words, bytes,
the 16-word files `S` and `W` and the 64-byte keystream buffer `B`. -/

namespace Sys2Proof

/-- A 32-bit unsigned word (R9, R11); its `+` wraps modulo 2^32 and its `^^^` is bitwise (R12). -/
abbrev Word := BitVec 32

/-- A byte of the keystream buffer or of DMEM (R20, R50). -/
abbrev Byte := BitVec 8

/-- A file of 16 words, indexed 0 to 15 (R21, R28): the shape of `S` and of `W`. -/
abbrev Words := Vector Word 16

/-- A 64-byte block of keystream, the shape of the buffer `B` (R16, R30). -/
abbrev Block := Vector Byte 64

/-- The index of a word of `S` or `W`: a 4-bit unsigned number, every value legal (R75). -/
abbrev Index := Fin 16

end Sys2Proof
end

