-- ==== Sys2Proof/Config.lean ====
section
/-! DEFINITION. What the spec leaves to the implementation (00_scope.md R10). -/

namespace Sys2Proof

/-- DMEM_SIZE, the number of bytes of DMEM: OPEN, between 0 and 2^32 (R10, R50; U4 `parameter`).
It has no body, so no proof can use a particular size. `State.dmemSize` carries the size of the machine
at hand, and only the reset state takes it from here (notes/assumptions/2.md). -/
opaque Config.dmemSize : Fin (2 ^ 32 + 1)

end Sys2Proof
end

