-- ==== Sys2Proof/Syntax.lean ====
section
/-! DEFINITION. The commands of the engine (30_encoding.md R81): one constructor of `Instr` for each row of
spec/opcode_table.json, its fields already read from the header word and its operand words. -/

namespace Sys2Proof

/-- The layout of counter and nonce (R20, R25, R26): field `L`, 0 = DJB and 1 = IETF. -/
inductive Layout where
  | djb
  | ietf
deriving DecidableEq, Repr

/-- The combine operation of a PRODUCE (R78, R150): field `M`, 0 = XOR and 1 = COPY. -/
inductive Mode where
  | xor
  | copy
deriving DecidableEq, Repr

/-- The causes of a rejection (60_exceptions.md R211). Code 0 is "none recorded" and has no constructor;
codes 7 to 15 are never recorded (U9). -/
inductive RejectCode where
  | illegalOp
  | reserved
  | notInit
  | badRounds
  | badOperand
  | range
deriving DecidableEq, Repr

/-- The 22 commands, in the order of the opcode map (R81). -/
inductive Instr where
  | nop
  | init (layout : Layout) (rounds : BitVec 8)
  | clear
  | rdstat
  | clrerr
  | wrs (i : Index) (value : Word)
  | rds (i : Index)
  | wrctr (lo hi : Word)
  | rdctr
  | ldw
  | wrw (i : Index) (value : Word)
  | rdw (i : Index)
  | qr (a b c d : Index)
  | colr
  | diagr
  | perm
  | ff
  | ser
  | adv
  | gen
  | flush
  | produce (mode : Mode) (addr len : Word)
deriving DecidableEq, Repr

end Sys2Proof
end

