-- ==== Sys2Proof/Machine/State.lean ====
section
/-! DEFINITION. The state of the engine (10_state.md R20 to R39) with DMEM (20_memory.md R50) and the host's pending
actions (00_scope.md R7), the reasons a step can stop, and the state after reset. -/

namespace Sys2Proof.Machine

/-- DMEM as (address, byte) pairs in canonical form (`Memory.wf` in Machine/Ops.lean). -/
abbrev Memory := List Host.Cell

/-- `CFG` (R32): the layout, and the round count as the 8-bit number INIT was given. -/
structure Cfg where
  layout : Layout
  rounds : BitVec 8
deriving DecidableEq, Repr

/-- `STATUS` (R33): INITED, the sticky ERR, and ERRCODE, the 4-bit code of the first rejection recorded. -/
structure Status where
  inited : Bool
  err : Bool
  errcode : BitVec 4
deriving DecidableEq, Repr

/-- `PARSE` (R37): at a header boundary, or inside a command whose header has been taken and whose operand
words are still awaited, with the operand words taken so far, oldest first. -/
inductive Parse where
  | header
  | operands (h : Word) (got : List Word)
deriving DecidableEq, Repr

/-- One action of the host on the engine's ports (R7, R36, R52, R240). Reading DMEM changes nothing (R58) and needs no
action: it is `Memory.read` of the state between two steps (past DMEM_SIZE: notes/assumptions/14.md). -/
inductive Input where
  /-- The host puts a word on the command port. -/
  | word (w : Word)
  /-- The host writes a byte of DMEM. -/
  | dmemWrite (addr : Word) (v : Byte)
  /-- The host takes the word at the head of the response FIFO. -/
  | takeResponse
  /-- The host asserts the hardware reset. -/
  | reset
deriving DecidableEq, Repr

/-- The reasons a step stops. None is raised by a command: a command executes or is rejected (R210). -/
inductive Fault where
  /-- Raised by `step`: a command's operand words have not all arrived and the host has nothing more to supply
  (R219, U11 `stuck`). Safe: the engine waits with no partial effect, and so does the model. -/
  | awaitingOperands
  /-- Raised by `step`: the host takes a response word from an empty FIFO. Safe: the spec gives no value for such
  a read, and the model stops. -/
  | noResponse
  /-- Raised by `step`: the host writes an address that is not below DMEM_SIZE (R50 gives it no byte).
  Safe: the model stops. -/
  | noSuchAddress
deriving DecidableEq, Repr

/-- The reasons the model gives an instruction no meaning. -/
inductive Refusal where
  /-- Raised by an arm of `exec` for an instruction with no meaning yet; no arm does. Safe. -/
  | notModelled (mnemonic : String)
deriving DecidableEq, Repr

/-- The state (R20, R50). `dmemSize` is the parameter DMEM_SIZE, which no step changes; `input` is what the host
has yet to do, oldest first (the command port among it). Both are the model's own fields. -/
structure State where
  /-- The state words (R21). -/
  S : Words
  /-- The working array (R28). -/
  W : Words
  /-- The keystream buffer (R30). -/
  B : Block
  /-- The buffer cursor POS, 0 to 64 (R30). -/
  pos : Fin 65
  /-- Layout and round count (R32). -/
  cfg : Cfg
  /-- INITED, ERR, ERRCODE (R33). -/
  status : Status
  /-- The response FIFO RESPQ, head first (R36). -/
  respq : List Word
  /-- The command parser's position PARSE (R37). -/
  parse : Parse
  /-- The data memory DMEM (R50). -/
  dmem : Memory
  /-- DMEM_SIZE (R10, R50). -/
  dmemSize : Fin (2 ^ 32 + 1)
  /-- The host's pending actions (R7). -/
  input : List Input
deriving DecidableEq, Repr

/-- The state right after a hardware reset (R39, R240): INITED, ERR and ERRCODE 0, RESPQ empty, the parser at a
header boundary. The spec leaves S, W, B, POS, CFG and DMEM unspecified and never observable: the values here are
a DESIGN CHOICE (notes/assumptions/1.md), zero, and POS = 64, "fully consumed"; DMEM lists nothing
(notes/assumptions/3.md). -/
def State.reset : State where
  S := Vector.replicate 16 0
  W := Vector.replicate 16 0
  B := Vector.replicate 64 0
  pos := 64
  cfg := { layout := .djb, rounds := 0 }
  status := { inited := false, err := false, errcode := 0 }
  respq := []
  parse := .header
  dmem := []
  dmemSize := Config.dmemSize
  input := []

end Sys2Proof.Machine
end

