-- ==== Sys2Proof/Machine/Ops.lean ====
section
/-! DEFINITION. The named operations over DMEM and the registers, and the taking and clearing of a rejection, which is
all this engine has in the place of exceptions (60_exceptions.md R210, R221, R222). -/

namespace Sys2Proof.Machine

/-! ### DMEM -/

/-- What a byte of DMEM that nothing has written reads as: 0, a DESIGN CHOICE (U2 leaves it open;
notes/assumptions/3.md). -/
def Memory.unlisted : Byte := 0

/-- `MemRead(addr, 1)` (R14, R58), and the host's read of a byte. It does not test DMEM_SIZE: a PRODUCE has tested its range before
(R60), and what a host read at an address that is not below DMEM_SIZE gives, for which the spec has no value (R50), is a DESIGN
CHOICE, what an unlisted address reads as (notes/assumptions/14.md). -/
def Memory.read : Memory → Nat → Byte
  | [], _ => Memory.unlisted
  | (b, u) :: m, a => if b = a then u else Memory.read m a

/-- `MemWrite(addr, 1, v)` (R14, R58): changes only its byte, and keeps the canonical form. -/
def Memory.write : Memory → Nat → Byte → Memory
  | [], a, v => if v = Memory.unlisted then [] else [(a, v)]
  | (b, u) :: m, a, v =>
    if a < b then (if v = Memory.unlisted then (b, u) :: m else (a, v) :: (b, u) :: m)
    else if a = b then (if v = Memory.unlisted then m else (a, v) :: m)
    else (b, u) :: Memory.write m a v

/-- The canonical form: addresses strictly rising, and no entry equal to what an unlisted address reads as. -/
abbrev Memory.wf (m : Memory) : Prop :=
  m.Pairwise (fun c d => c.1 < d.1) ∧ ∀ c ∈ m, c.2 ≠ Memory.unlisted

/-- Every listed address is below DMEM_SIZE (R50). -/
abbrev Memory.inside (m : Memory) (size : Nat) : Prop :=
  ∀ c ∈ m, c.1 < size

/-! ### Byte order -/

/-- `bytes_le(w)` (R14, R53): the four bytes of a word, least significant first. -/
def bytesLE (w : Word) : List Byte :=
  [w.extractLsb' 0 8, w.extractLsb' 8 8, w.extractLsb' 16 8, w.extractLsb' 24 8]

/-- `LE32(b0, b1, b2, b3)` (R14, R53). -/
def le32 (b0 b1 b2 b3 : Byte) : Word :=
  b3 ++ b2 ++ b1 ++ b0

/-! ### Registers -/

/-- Reads a word of `S` (R21): no word is hardwired and no index aliases another. -/
def State.readS (s : State) (i : Index) : Word :=
  s.S[i]

/-- Writes a word of `S` (R21). -/
def State.writeS (s : State) (i : Index) (v : Word) : State :=
  { s with S := s.S.set i v }

/-- Reads a word of `W` (R28). -/
def State.readW (s : State) (i : Index) : Word :=
  s.W[i]

/-- Writes a word of `W` (R28). -/
def State.writeW (s : State) (i : Index) (v : Word) : State :=
  { s with W := s.W.set i v }

/-- Writes the whole of `W` (R28). -/
def State.setW (s : State) (X : Words) : State :=
  { s with W := X }

/-- Writes the whole buffer and the cursor (R30: `B` is written only whole). -/
def State.setBuffer (s : State) (B : Block) (pos : Fin 65) : State :=
  { s with B := B, pos := pos }

/-- Replaces the contents of DMEM. -/
def State.setDmem (s : State) (m : Memory) : State :=
  { s with dmem := m }

/-- Replaces the state words. -/
def State.setS (s : State) (X : Words) : State :=
  { s with S := X }

/-- `Respond(v)` (R14, R36): appends a word at the tail of RESPQ, which is unbounded. -/
def State.respond (s : State) (v : Word) : State :=
  { s with respq := s.respq ++ [v] }

/-! ### Rejection -/

/-- The number of a rejection cause in ERRCODE (R211). -/
def codeNumber : RejectCode → BitVec 4
  | .illegalOp => 1
  | .reserved => 2
  | .notInit => 3
  | .badRounds => 4
  | .badOperand => 5
  | .range => 6

/-- `Record(c)` (R212), the whole effect of a rejected command (R213): ERR is set, and ERRCODE takes the code only
if no rejection was recorded before. -/
def State.record (s : State) (c : RejectCode) : State :=
  { s with status := { s.status with
      err := true
      errcode := if s.status.err then s.status.errcode else codeNumber c } }

/-- Clears the error record (R195), the analogue of a return (R222). -/
def State.clearRecord (s : State) : State :=
  { s with status := { s.status with err := false, errcode := 0 } }

end Sys2Proof.Machine
end

