-- ==== Sys2Proof/Machine/Chacha.lean ====
section
/-! DEFINITION. The functions commands are built from: quarter round, rounds, permutation (40_permutation.md R100 to R103),
feed-forward, serializer, counter advance and the block function (41_block_core.md R130 to R133). -/

namespace Sys2Proof.Machine

/-- `rotl32(x, n)` for 0 < n < 32 (R12). -/
def rotl32 (x : Word) (n : Nat) : Word :=
  (x <<< n) ||| (x >>> (32 - n))

/-- One statement group of the quarter round (R100): `X[p] <- X[p] +32 X[q]; X[r] <- X[r] ^ X[p];
X[r] <- rotl32(X[r], n)`, each statement reading what the one before wrote. -/
def mixStep (X : Words) (p q r : Index) (n : Nat) : Words :=
  let X := X.set p (X[p] + X[q])
  let X := X.set r (X[r] ^^^ X[p])
  X.set r (rotl32 X[r] n)

/-- `QRF(X, a, b, c, d)` (R100). -/
def qrF (X : Words) (a b c d : Index) : Words :=
  let X := mixStep X a b d 16
  let X := mixStep X c d b 12
  let X := mixStep X a b d 8
  mixStep X c d b 7

/-- `COLRF(X)` (R101). -/
def colrF (X : Words) : Words :=
  let X := qrF X 0 4 8 12
  let X := qrF X 1 5 9 13
  let X := qrF X 2 6 10 14
  qrF X 3 7 11 15

/-- `DIAGRF(X)` (R102). -/
def diagrF (X : Words) : Words :=
  let X := qrF X 0 5 10 15
  let X := qrF X 1 6 11 12
  let X := qrF X 2 7 8 13
  qrF X 3 4 9 14

/-- `PERMF(X, n)` (R103): rounds 0 to n - 1, a column round where the round's number is even. -/
def permF (X : Words) : Nat → Words
  | 0 => X
  | k + 1 => if k % 2 = 0 then colrF (permF X k) else diagrF (permF X k)

/-- Feed-forward (R111, R133 step 3): word by word, a carry out of a word discarded. -/
def feedForward (X S : Words) : Words :=
  Vector.zipWith (· + ·) X S

/-- Byte `j` of the serialization: byte `j mod 4` of word `j div 4` (R132, R53). -/
def serByte (X : Words) (j : Fin 64) : Byte :=
  (X[j.val / 4]'(by omega)).extractLsb' (8 * (j.val % 4)) 8

/-- `SERF(X)` (R132). It is irreducible so that no unification runs through its 64 bytes; `serF_get` in Laws/Chacha.lean
reads a byte of it, and the kernel evaluates it. -/
@[irreducible] def serF (X : Words) : Block :=
  Vector.ofFn (serByte X)

/-- `ADVF_IETF(S)` (R130). -/
def advIetf (S : Words) : Words :=
  S.set 12 (S[12] + 1)

/-- `ADVF_DJB(S)` (R131): the low word, and the high word if the low word wrapped to 0. -/
def advDjb (S : Words) : Words :=
  let S := S.set 12 (S[12] + 1)
  if S[12] = 0 then S.set 13 (S[13] + 1) else S

/-- The counter advance of a layout (R133 step 5, R135). -/
def advF (l : Layout) (S : Words) : Words :=
  match l with
  | .ietf => advIetf S
  | .djb => advDjb S

/-- The output words of a block (R133 steps 1 to 3): a function of the state words and the round count alone (R140). -/
def blockWords (S : Words) (rounds : Nat) : Words :=
  feedForward (permF S rounds) S

/-- `BlockFn()` (R133): the 64 keystream bytes, and the state with `W` the output words and the counter advanced. -/
def blockFn (s : State) : Block × State :=
  let X := blockWords s.S s.cfg.rounds.toNat
  (serF X, (s.setW X).setS (advF s.cfg.layout s.S))

end Sys2Proof.Machine
end

