-- ==== Sys2Proof/Decode.lean ====
section
/-! DEFINITION. Decoding of command words, total on every list of words (30_encoding.md R70 to R85), and after it
the encoder, written from the same formats. Every bit position here is rule R71 to R78 of that file. -/

namespace Sys2Proof

/-- The assigned opcodes (R81), one for each constructor of `Instr`. -/
inductive Opcode where
  | nop
  | init
  | clear
  | rdstat
  | clrerr
  | wrs
  | rds
  | wrctr
  | rdctr
  | ldw
  | wrw
  | rdw
  | qr
  | colr
  | diagr
  | perm
  | ff
  | ser
  | adv
  | gen
  | flush
  | produce
deriving DecidableEq, Repr

/-- The header formats (R74 to R78). -/
inductive Format where
  | f0
  | fi
  | fq
  | fc
  | fm
deriving DecidableEq, Repr

/-- The opcodes in the order of the opcode map (R81). -/
def Opcode.all : List Opcode :=
  [.nop, .init, .clear, .rdstat, .clrerr, .wrs, .rds, .wrctr, .rdctr, .ldw, .wrw,
   .rdw, .qr, .colr, .diagr, .perm, .ff, .ser, .adv, .gen, .flush, .produce]

/-- Column OP of the opcode map (R81). -/
def Opcode.number : Opcode → BitVec 8
  | .nop => 0x00
  | .init => 0x01
  | .clear => 0x02
  | .rdstat => 0x03
  | .clrerr => 0x04
  | .wrs => 0x08
  | .rds => 0x09
  | .wrctr => 0x0a
  | .rdctr => 0x0b
  | .ldw => 0x10
  | .wrw => 0x11
  | .rdw => 0x12
  | .qr => 0x13
  | .colr => 0x14
  | .diagr => 0x15
  | .perm => 0x16
  | .ff => 0x17
  | .ser => 0x20
  | .adv => 0x21
  | .gen => 0x22
  | .flush => 0x23
  | .produce => 0x24

/-- Column "format" of the opcode map (R81). -/
def Opcode.format : Opcode → Format
  | .nop => .f0
  | .init => .fc
  | .clear => .f0
  | .rdstat => .f0
  | .clrerr => .f0
  | .wrs => .fi
  | .rds => .fi
  | .wrctr => .f0
  | .rdctr => .f0
  | .ldw => .f0
  | .wrw => .fi
  | .rdw => .fi
  | .qr => .fq
  | .colr => .f0
  | .diagr => .f0
  | .perm => .f0
  | .ff => .f0
  | .ser => .f0
  | .adv => .f0
  | .gen => .f0
  | .flush => .f0
  | .produce => .fm

/-- The number of operand words, a function of the opcode alone (R73). -/
def Opcode.operandCount : Opcode → Nat
  | .nop => 0
  | .init => 0
  | .clear => 0
  | .rdstat => 0
  | .clrerr => 0
  | .wrs => 1
  | .rds => 0
  | .wrctr => 2
  | .rdctr => 0
  | .ldw => 0
  | .wrw => 1
  | .rdw => 0
  | .qr => 0
  | .colr => 0
  | .diagr => 0
  | .perm => 0
  | .ff => 0
  | .ser => 0
  | .adv => 0
  | .gen => 0
  | .flush => 0
  | .produce => 2

/-- The bits of ARGS that must be 0 in each format (R74 to R78; the masks of R85). -/
def Format.reservedMask : Format → BitVec 24
  | .f0 => 0xFFFFFF
  | .fi => 0xFFFFF0
  | .fq => 0xFF0000
  | .fc => 0xFFFE00
  | .fm => 0xFFFFFE

/-- Field OP of a header word, bits [31:24] (R71). -/
def opField (h : Word) : BitVec 8 :=
  h.extractLsb' 24 8

/-- Field ARGS of a header word, bits [23:0] (R71). -/
def argsField (h : Word) : BitVec 24 :=
  h.extractLsb' 0 24

/-- The assigned opcode of a number, none for the illegal numbers of R82. -/
def Opcode.ofNumber (n : BitVec 8) : Option Opcode :=
  Opcode.all.find? fun op => op.number == n

/-- How many operand words follow a header: the opcode's count, 0 for an unassigned opcode (R73). -/
def operandCountOf (h : Word) : Nat :=
  match Opcode.ofNumber (opField h) with
  | some op => op.operandCount
  | none => 0

/-- The 4-bit index field of ARGS whose lowest bit is `lo` (R75, R76, R79). -/
def indexField (args : BitVec 24) (lo : Nat) : Index :=
  (args.extractLsb' lo 4).toFin

/-- Field `L`, ARGS[8] (R77). -/
def layoutField (args : BitVec 24) : Layout :=
  if args.getLsbD 8 then .ietf else .djb

/-- Field `R`, ARGS[7:0] (R77). -/
def roundsField (args : BitVec 24) : BitVec 8 :=
  args.extractLsb' 0 8

/-- Field `M`, ARGS[0] (R78). -/
def modeField (args : BitVec 24) : Mode :=
  if args.getLsbD 0 then .copy else .xor

/-- `Operand(k)`, the k-th operand word after the header (R14, R72). The decoder asks only for operands the
opcode has, so the default of a missing word is never used. -/
def operand (ops : List Word) (k : Nat) : Word :=
  ops.getD k 0

/-- `fields(op, args)` of R85: the command of an opcode, its ARGS and its operand words. -/
def Opcode.command (op : Opcode) (args : BitVec 24) (ops : List Word) : Instr :=
  match op with
  | .nop => .nop
  | .init => .init (layoutField args) (roundsField args)
  | .clear => .clear
  | .rdstat => .rdstat
  | .clrerr => .clrerr
  | .wrs => .wrs (indexField args 0) (operand ops 0)
  | .rds => .rds (indexField args 0)
  | .wrctr => .wrctr (operand ops 0) (operand ops 1)
  | .rdctr => .rdctr
  | .ldw => .ldw
  | .wrw => .wrw (indexField args 0) (operand ops 0)
  | .rdw => .rdw (indexField args 0)
  | .qr => .qr (indexField args 12) (indexField args 8) (indexField args 4) (indexField args 0)
  | .colr => .colr
  | .diagr => .diagr
  | .perm => .perm
  | .ff => .ff
  | .ser => .ser
  | .adv => .adv
  | .gen => .gen
  | .flush => .flush
  | .produce => .produce (modeField args) (operand ops 0) (operand ops 1)

/-- What the decoder reads from a list of words: a command and the words after it, a rejection by its
code and the words after it, or a command some of whose words are still missing (R85, R219). -/
inductive Decoded where
  | command (i : Instr) (rest : List Word)
  | rejected (c : RejectCode) (rest : List Word)
  | incomplete
deriving DecidableEq, Repr

/-- A header with all its operand words, by R85: illegal opcode first, then reserved bits, then the command
(the order of R215). -/
def decodeWhole (h : Word) (ops rest : List Word) : Decoded :=
  match Opcode.ofNumber (opField h) with
  | none => .rejected .illegalOp rest
  | some op =>
    if argsField h &&& op.format.reservedMask = 0 then .command (op.command (argsField h) ops) rest
    else .rejected .reserved rest

/-- Decoding at a header boundary (R73, R85), total on every list of words. -/
def decode : List Word → Decoded
  | [] => .incomplete
  | h :: ws =>
    if ws.length < operandCountOf h then .incomplete
    else decodeWhole h (ws.take (operandCountOf h)) (ws.drop (operandCountOf h))

/-- The words of an instruction whose bits are numbered as spec/opcode_table.json numbers them: bit 0 is the least
significant bit of the header, the first operand's bits count on from bit 32; the header is followed by
exactly the operand words its opcode takes, and every bit from `nbits` on is 0. -/
def tableWords (nbits w : Nat) : List Word :=
  let v := w % 2 ^ nbits
  let h := BitVec.ofNat 32 v
  h :: [BitVec.ofNat 32 (v >>> 32), BitVec.ofNat 32 (v >>> 64)].take (operandCountOf h)

/-- The instruction the decoder reads from a word of the opcode table, none where it rejects. -/
def decodeTableWord (nbits w : Nat) : Option Instr :=
  match decode (tableWords nbits w) with
  | .command i _ => some i
  | .rejected _ _ => none
  | .incomplete => none

/-! ### The encoder -/

/-- The opcode of a command. -/
def Instr.opcode : Instr → Opcode
  | .nop => .nop
  | .init _ _ => .init
  | .clear => .clear
  | .rdstat => .rdstat
  | .clrerr => .clrerr
  | .wrs _ _ => .wrs
  | .rds _ => .rds
  | .wrctr _ _ => .wrctr
  | .rdctr => .rdctr
  | .ldw => .ldw
  | .wrw _ _ => .wrw
  | .rdw _ => .rdw
  | .qr _ _ _ _ => .qr
  | .colr => .colr
  | .diagr => .diagr
  | .perm => .perm
  | .ff => .ff
  | .ser => .ser
  | .adv => .adv
  | .gen => .gen
  | .flush => .flush
  | .produce _ _ _ => .produce

/-- Field `L` as a bit (R77). -/
def Layout.bit : Layout → BitVec 1
  | .djb => 0
  | .ietf => 1

/-- Field `M` as a bit (R78). -/
def Mode.bit : Mode → BitVec 1
  | .xor => 0
  | .copy => 1

/-- ARGS of format FI (R75). -/
def argsFI (i : Index) : BitVec 24 :=
  0#20 ++ (BitVec.ofFin i : BitVec 4)

/-- ARGS of format FQ (R76). -/
def argsFQ (a b c d : Index) : BitVec 24 :=
  0#8 ++ ((BitVec.ofFin a : BitVec 4) ++ (BitVec.ofFin b : BitVec 4) ++ (BitVec.ofFin c : BitVec 4)
    ++ (BitVec.ofFin d : BitVec 4))

/-- ARGS of format FC (R77). -/
def argsFC (l : Layout) (r : BitVec 8) : BitVec 24 :=
  0#15 ++ (l.bit ++ r)

/-- ARGS of format FM (R78). -/
def argsFM (m : Mode) : BitVec 24 :=
  0#23 ++ m.bit

/-- Field ARGS of a command's header, every reserved bit 0. -/
def encodeArgs : Instr → BitVec 24
  | .nop => 0
  | .init layout rounds => argsFC layout rounds
  | .clear => 0
  | .rdstat => 0
  | .clrerr => 0
  | .wrs i _ => argsFI i
  | .rds i => argsFI i
  | .wrctr _ _ => 0
  | .rdctr => 0
  | .ldw => 0
  | .wrw i _ => argsFI i
  | .rdw i => argsFI i
  | .qr a b c d => argsFQ a b c d
  | .colr => 0
  | .diagr => 0
  | .perm => 0
  | .ff => 0
  | .ser => 0
  | .adv => 0
  | .gen => 0
  | .flush => 0
  | .produce mode _ _ => argsFM mode

/-- The operand words of a command, in the order of its rule (R72). -/
def encodeOperands : Instr → List Word
  | .nop => []
  | .init _ _ => []
  | .clear => []
  | .rdstat => []
  | .clrerr => []
  | .wrs _ value => [value]
  | .rds _ => []
  | .wrctr lo hi => [lo, hi]
  | .rdctr => []
  | .ldw => []
  | .wrw _ value => [value]
  | .rdw _ => []
  | .qr _ _ _ _ => []
  | .colr => []
  | .diagr => []
  | .perm => []
  | .ff => []
  | .ser => []
  | .adv => []
  | .gen => []
  | .flush => []
  | .produce _ addr len => [addr, len]

/-- The header word of a command (R71). -/
def encodeHeader (i : Instr) : Word :=
  i.opcode.number ++ encodeArgs i

/-- The words of a command: its header, then its operand words (R70). -/
def encode (i : Instr) : List Word :=
  encodeHeader i :: encodeOperands i

end Sys2Proof
end

