-- ==== Sys2Proof/Machine/Flags.lean ====
section
/-! DEFINITION. The status: its image (10_state.md R34) and the gate on STATUS.INITED (60_exceptions.md R217). The engine
has no condition codes (R35). -/

namespace Sys2Proof.Machine

/-- A one-bit field, in bit 0 of a word. -/
def bitWord (b : Bool) : Word :=
  if b then 1 else 0

/-- `StatusImage()` (R34, R194): CFG and POS read as 0 while INITED = 0. -/
def statusImage (s : State) : Word :=
  let v := bitWord s.status.inited ||| bitWord s.status.err <<< 1 ||| s.status.errcode.setWidth 32 <<< 4
  if s.status.inited then
    v ||| s.cfg.layout.bit.setWidth 32 <<< 8 ||| s.cfg.rounds.setWidth 32 <<< 16
      ||| BitVec.ofNat 32 s.pos.val <<< 24
  else v

/-- The gate of R217 around a command that needs STATUS.INITED = 1: the command goes to state `t`, or is rejected
with NOT_INIT. -/
def whenInited (s t : State) : Host.Outcome State Fault Refusal :=
  if s.status.inited then .next t else .next (s.record .notInit)

end Sys2Proof.Machine
end

