-- ==== Sys2Proof/Machine/BlockCore.lean ====
section
/-! DEFINITION. The block core commands (41_block_core.md R134 to R136). -/

namespace Sys2Proof.Machine

/-- SER (R134). -/
def execSer (s : State) : Host.Outcome State Fault Refusal :=
  whenInited s (s.setBuffer (serF s.W) 0)

/-- ADV (R135); the wrap is silent (R137). -/
def execAdv (s : State) : Host.Outcome State Fault Refusal :=
  whenInited s (s.setS (advF s.cfg.layout s.S))

/-- `B <- BlockFn(); POS <- p`: a block generated into the buffer (R136, R153 step 3). -/
def refill (s : State) (p : Fin 65) : State :=
  (blockFn s).2.setBuffer (blockFn s).1 p

/-- GEN (R136). -/
def execGen (s : State) : Host.Outcome State Fault Refusal :=
  whenInited s (refill s 0)

end Sys2Proof.Machine
end

