-- ==== Sys2Proof/Machine/Operands.lean ====
section
/-! DEFINITION. The operands commands check or combine: INIT's round count (44_control.md R191), PRODUCE's byte range
(20_memory.md R60) and its combine operation (42_streaming.md R150). -/

namespace Sys2Proof.Machine

/-- INIT's check of its round count: 8, 12 or 20 (R191). -/
def roundsAccepted (r : BitVec 8) : Bool :=
  r == 8 || r == 12 || r == 20

/-- PRODUCE's range check, `ADDR + LEN <= DMEM_SIZE` on unbounded integers (R60). -/
def rangeAccepted (s : State) (addr len : Word) : Bool :=
  decide (addr.toNat + len.toNat ≤ s.dmemSize.val)

/-- `COMBINE(M, a, k)` (R150): XOR reads the byte before it writes it, COPY only writes. -/
def combine (mode : Mode) (m : Memory) (a : Nat) (k : Byte) : Memory :=
  match mode with
  | .xor => Memory.write m a (Memory.read m a ^^^ k)
  | .copy => Memory.write m a k

/-- Combines a run of keystream bytes into DMEM from address `a` on, in increasing address order (R62, R153). -/
def combineBytes (mode : Mode) (m : Memory) (a : Nat) : List Byte → Memory
  | [] => m
  | k :: ks => combineBytes mode (combine mode m a k) (a + 1) ks

end Sys2Proof.Machine
end

