-- ==== Sys2Proof/Machine/Control.lean ====
section
/-! DEFINITION. The control commands (44_control.md R190 to R195). None needs STATUS.INITED = 1. -/

namespace Sys2Proof.Machine

/-- NOP (R190). -/
def execNop (s : State) : Host.Outcome State Fault Refusal :=
  .next s

/-- The default constants "expand 32-byte k", then zero key, counter and nonce (R23, R191). -/
def initialWords : Words :=
  #v[0x61707865, 0x3320646e, 0x79622d32, 0x6b206574, 0, 0, 0, 0, 0, 0, 0, 0, 0, 0, 0, 0]

/-- The state an accepted INIT constructs (R191): ERR, ERRCODE, RESPQ and DMEM are kept. -/
def construct (l : Layout) (r : BitVec 8) (s : State) : State :=
  { s with
    cfg := { layout := l, rounds := r }
    S := initialWords
    W := Vector.replicate 16 0
    B := Vector.replicate 64 0
    pos := 64
    status := { s.status with inited := true } }

/-- INIT (R191). -/
def execInit (l : Layout) (r : BitVec 8) (s : State) : Host.Outcome State Fault Refusal :=
  if roundsAccepted r then .next (construct l r s) else .next (s.record .badRounds)

/-- CLEAR (R193): the constants too; CFG, STATUS and DMEM are kept. -/
def execClear (s : State) : Host.Outcome State Fault Refusal :=
  .next { s with
    S := Vector.replicate 16 0
    W := Vector.replicate 16 0
    B := Vector.replicate 64 0
    pos := 64 }

/-- RDSTAT (R194). -/
def execRdstat (s : State) : Host.Outcome State Fault Refusal :=
  .next (s.respond (statusImage s))

/-- CLRERR (R195). -/
def execClrerr (s : State) : Host.Outcome State Fault Refusal :=
  .next s.clearRecord

end Sys2Proof.Machine
end

