-- ==== Sys2Proof/Machine/Permutation.lean ====
section
/-! DEFINITION. The permutation commands on the working array (40_permutation.md R104 to R111). -/

namespace Sys2Proof.Machine

/-- LDW (R108). -/
def execLdw (s : State) : Host.Outcome State Fault Refusal :=
  whenInited s (s.setW s.S)

/-- WRW (R109). -/
def execWrw (i : Index) (v : Word) (s : State) : Host.Outcome State Fault Refusal :=
  whenInited s (s.writeW i v)

/-- RDW (R110). -/
def execRdw (i : Index) (s : State) : Host.Outcome State Fault Refusal :=
  whenInited s (s.respond (s.readW i))

/-- QR (R104): the indices need not be distinct. -/
def execQr (a b c d : Index) (s : State) : Host.Outcome State Fault Refusal :=
  whenInited s (s.setW (qrF s.W a b c d))

/-- COLR (R105). -/
def execColr (s : State) : Host.Outcome State Fault Refusal :=
  whenInited s (s.setW (colrF s.W))

/-- DIAGR (R106). -/
def execDiagr (s : State) : Host.Outcome State Fault Refusal :=
  whenInited s (s.setW (diagrF s.W))

/-- PERM (R107). -/
def execPerm (s : State) : Host.Outcome State Fault Refusal :=
  whenInited s (s.setW (permF s.W s.cfg.rounds.toNat))

/-- FF (R111): adds the current S. -/
def execFf (s : State) : Host.Outcome State Fault Refusal :=
  whenInited s (s.setW (feedForward s.W s.S))

end Sys2Proof.Machine
end

