-- ==== Sys2Proof/Machine/StateAccess.lean ====
section
/-! DEFINITION. The state accessors (43_state_access.md R170 to R173). None touches B or POS (R174). -/

namespace Sys2Proof.Machine

/-- WRS (R170). -/
def execWrs (i : Index) (v : Word) (s : State) : Host.Outcome State Fault Refusal :=
  whenInited s (s.writeS i v)

/-- RDS (R171). -/
def execRds (i : Index) (s : State) : Host.Outcome State Fault Refusal :=
  whenInited s (s.respond (s.readS i))

/-- WRCTR (R172): both counter words in DJB; in IETF the high word must be 0 and S[13], a nonce word, is kept. -/
def execWrctr (lo hi : Word) (s : State) : Host.Outcome State Fault Refusal :=
  whenInited s <|
    match s.cfg.layout with
    | .djb => (s.writeS 12 lo).writeS 13 hi
    | .ietf => if hi = 0 then s.writeS 12 lo else s.record .badOperand

/-- RDCTR (R173): the second word is 0 in IETF, never S[13]. -/
def execRdctr (s : State) : Host.Outcome State Fault Refusal :=
  whenInited s <|
    match s.cfg.layout with
    | .djb => (s.respond (s.readS 12)).respond (s.readS 13)
    | .ietf => (s.respond (s.readS 12)).respond 0

end Sys2Proof.Machine
end

