-- ==== Sys2Proof/Machine/Streaming.lean ====
section
/-! DEFINITION. The streaming commands (42_streaming.md R153, R154). -/

namespace Sys2Proof.Machine

/-- FLUSH (R154). -/
def execFlush (s : State) : Host.Outcome State Fault Refusal :=
  whenInited s { s with pos := 64 }

/-- The number of bytes step 1 of PRODUCE hands out for a request of `len` bytes (R153): 0 when POS = 64. -/
def drainCount (s : State) (len : Nat) : Nat :=
  min len (64 - s.pos.val)

/-- Step 1 of PRODUCE (R153): hands out buffered bytes from POS on. -/
def drain (mode : Mode) (addr len : Nat) (s : State) : State :=
  { s with
    dmem := combineBytes mode s.dmem addr ((s.B.toList.drop s.pos.val).take (drainCount s len))
    pos := ⟨s.pos.val + drainCount s len, by have := s.pos.isLt; unfold drainCount; omega⟩ }

/-- Step 2 of PRODUCE (R153): `k` whole blocks straight into DMEM; B and POS are untouched. -/
def wholeBlocks (mode : Mode) : Nat → Nat → State → State
  | 0, _, s => s
  | k + 1, addr, s =>
    wholeBlocks mode k (addr + 64)
      ((blockFn s).2.setDmem (combineBytes mode s.dmem addr (blockFn s).1.toList))

/-- Step 3 of PRODUCE (R153): one block into the buffer for the `rem` bytes that are left, none if `rem` is 0. -/
def tailBlock (mode : Mode) (addr : Nat) (rem : Fin 64) (s : State) : State :=
  if rem = 0 then s
  else
    let t := refill s ⟨rem.val, by omega⟩
    t.setDmem (combineBytes mode s.dmem addr (t.B.toList.take rem.val))

/-- The three steps of an accepted PRODUCE (R153): `while rem >= 64` runs `rem div 64` times and leaves
`rem mod 64` bytes for step 3. -/
def produce (mode : Mode) (addr len : Nat) (s : State) : State :=
  let n := drainCount s len
  let rem := len - n
  let s := drain mode addr len s
  let s := wholeBlocks mode (rem / 64) (addr + n) s
  tailBlock mode (addr + n + 64 * (rem / 64)) ⟨rem % 64, Nat.mod_lt _ (by decide)⟩ s

/-- PRODUCE (R153): every check is made before any effect (R213). -/
def execProduce (mode : Mode) (addr len : Word) (s : State) : Host.Outcome State Fault Refusal :=
  whenInited s <|
    if rangeAccepted s addr len then produce mode addr.toNat len.toNat s else s.record .range

end Sys2Proof.Machine
end

