-- ==== Sys2Proof/Machine/Dispatch.lean ====
section
/-! DEFINITION. One arm for each command of the opcode map (30_encoding.md R81): each is one call of its meaning. -/

namespace Sys2Proof.Machine

/-- Executes a decoded command. -/
def exec (i : Instr) (s : State) : Host.Outcome State Fault Refusal :=
  match i with
  | .nop => Sys2Proof.Machine.execNop s
  | .init layout rounds => Sys2Proof.Machine.execInit layout rounds s
  | .clear => Sys2Proof.Machine.execClear s
  | .rdstat => Sys2Proof.Machine.execRdstat s
  | .clrerr => Sys2Proof.Machine.execClrerr s
  | .wrs i0 value => Sys2Proof.Machine.execWrs i0 value s
  | .rds i0 => Sys2Proof.Machine.execRds i0 s
  | .wrctr lo hi => Sys2Proof.Machine.execWrctr lo hi s
  | .rdctr => Sys2Proof.Machine.execRdctr s
  | .ldw => Sys2Proof.Machine.execLdw s
  | .wrw i0 value => Sys2Proof.Machine.execWrw i0 value s
  | .rdw i0 => Sys2Proof.Machine.execRdw i0 s
  | .qr a b c d => Sys2Proof.Machine.execQr a b c d s
  | .colr => Sys2Proof.Machine.execColr s
  | .diagr => Sys2Proof.Machine.execDiagr s
  | .perm => Sys2Proof.Machine.execPerm s
  | .ff => Sys2Proof.Machine.execFf s
  | .ser => Sys2Proof.Machine.execSer s
  | .adv => Sys2Proof.Machine.execAdv s
  | .gen => Sys2Proof.Machine.execGen s
  | .flush => Sys2Proof.Machine.execFlush s
  | .produce mode addr len => Sys2Proof.Machine.execProduce mode addr len s

end Sys2Proof.Machine
end

