-- ==== Sys2Proof/Machine/HostPort.lean ====
section
/-! DEFINITION. What the host does to the engine between commands (00_scope.md R7, 10_state.md R36, 20_memory.md R52,
70_reset_and_hazards.md R240). -/

namespace Sys2Proof.Machine

/-- The host writes a byte of DMEM (R52); an address DMEM does not have (R50) stops the model. -/
def dmemWriteByHost (a : Word) (v : Byte) (s : State) : Host.Outcome State Fault Refusal :=
  if a.toNat < s.dmemSize.val then .next (s.setDmem (Memory.write s.dmem a.toNat v))
  else .fault .noSuchAddress

/-- The host takes the word at the head of RESPQ (R36). -/
def takeResponseByHost (s : State) : Host.Outcome State Fault Refusal :=
  match s.respq with
  | [] => .fault .noResponse
  | _ :: rest => .next { s with respq := rest }

/-- A hardware reset (R240): the reset state, a command in progress abandoned, DMEM untouched; what the host has yet
to do stays to be done. -/
def hardReset (s : State) : State :=
  { State.reset with dmem := s.dmem, dmemSize := s.dmemSize, input := s.input }

/-- The host supplies more actions (R7), a transformation of the state from outside the step. -/
def State.supply (s : State) (xs : List Input) : State :=
  { s with input := s.input ++ xs }

/-- The host puts words on the command port. -/
def State.supplyWords (s : State) (ws : List Word) : State :=
  s.supply (ws.map .word)

end Sys2Proof.Machine
end

