-- ==== Sys2Proof/Machine/Parser.lean ====
section
/-! DEFINITION. The command parser (30_encoding.md R70, R73; 10_state.md R37): it takes words from the command port until a
command is whole. -/

namespace Sys2Proof.Machine

/-- The words of the command being parsed that have been taken already. -/
def Parse.taken : Parse → List Word
  | .header => []
  | .operands h got => h :: got

/-- The parser's position after it has taken the given words of an incomplete command. -/
def parseOf : List Word → Parse
  | [] => .header
  | h :: got => .operands h got

/-- What the parser makes of the host's pending actions: a command or a rejection by its code, and the actions
after it, or the position where it waits for another word. -/
inductive Parsed where
  | command (i : Instr) (rest : List Input)
  | rejected (c : RejectCode) (rest : List Input)
  | waiting (p : Parse) (rest : List Input)
deriving DecidableEq, Repr

/-- Takes words one by one (R73): after each, the words taken so far either decode or are incomplete. An action
that is no word leaves the parser where it is. -/
def parseInput (p : Parse) : List Input → Parsed
  | .word w :: rest =>
    match decode (p.taken ++ [w]) with
    | .command i _ => .command i rest
    | .rejected c _ => .rejected c rest
    | .incomplete => parseInput (parseOf (p.taken ++ [w])) rest
  | .dmemWrite a v :: rest => .waiting p (.dmemWrite a v :: rest)
  | .takeResponse :: rest => .waiting p (.takeResponse :: rest)
  | .reset :: rest => .waiting p (.reset :: rest)
  | [] => .waiting p []

end Sys2Proof.Machine
end

