-- ==== Sys2Proof/Machine/Step.lean ====
section
/-! DEFINITION. One step: the engine takes the next command whole from the command port and executes or rejects it
(20_memory.md R57, R62), or the host does one action between commands (R52). The engine has no program counter
(10_state.md R31). -/

namespace Sys2Proof.Machine

/-- What the engine does with what its parser found. -/
def runParsed (s : State) : Parsed → Host.Outcome State Fault Refusal
  | .command i rest => exec i { s with parse := .header, input := rest }
  | .rejected c rest => .next (State.record { s with parse := .header, input := rest } c)
  | .waiting p rest => .next { s with parse := p, input := rest }

/-- With no pending action the engine is idle and keeps all state (R229), unless it awaits operand words, where it is
stuck (R219). -/
def runIdle (s : State) : Host.Outcome State Fault Refusal :=
  match s.parse with
  | .header => .next s
  | .operands _ _ => .fault .awaitingOperands

/-- One step of the machine. -/
def step (s : State) : Host.Outcome State Fault Refusal :=
  match s.input with
  | [] => runIdle s
  | .word w :: rest => runParsed s (parseInput s.parse (.word w :: rest))
  | .dmemWrite a v :: rest => dmemWriteByHost a v { s with input := rest }
  | .takeResponse :: rest => takeResponseByHost { s with input := rest }
  | .reset :: rest => .next (hardReset { s with input := rest })

/-- `s` with one instruction of the opcode table put at the front of the command port, the parser at a header
boundary, so that the next step runs exactly that instruction. -/
def State.withFetchWord (s : State) (nbits w : Nat) : State :=
  { s with parse := .header, input := (tableWords nbits w).map .word ++ s.input }

end Sys2Proof.Machine
end

