-- ==== Sys2Proof/Machine/Assembler.lean ====
section
/-! DEFINITION. The assembler of 30_encoding.md R86, on lines as lists of characters: one command per line, mnemonics
case-insensitive, numbers in decimal or `0x` hex, `#` starts a comment, `.word` emits a word as given. -/

namespace Sys2Proof.Machine

/-- A space or a tab. -/
def isBlank (c : Char) : Bool :=
  c == ' ' || c == '\t'

/-- Drops blanks at both ends. -/
def trimBlanks (cs : List Char) : List Char :=
  ((cs.dropWhile isBlank).reverse.dropWhile isBlank).reverse

/-- The text before a comment. -/
def withoutComment (cs : List Char) : List Char :=
  cs.takeWhile (· != '#')

/-- Splits at commas and drops the blanks around each part; a text of blanks only has no part. -/
def splitOperands (cs : List Char) : List (List Char) :=
  match trimBlanks cs with
  | [] => []
  | c :: rest => ((c :: rest).splitOn ',').map trimBlanks

/-- The value of a digit in a base up to 16. -/
def digitValue (base : Nat) (c : Char) : Option Nat :=
  let n := c.toNat
  let v :=
    if 48 ≤ n ∧ n ≤ 57 then some (n - 48)
    else if 97 ≤ n ∧ n ≤ 102 then some (n - 87)
    else if 65 ≤ n ∧ n ≤ 70 then some (n - 55)
    else none
  v.filter (· < base)

/-- The digits of a number, most significant first, after the value `acc` read so far. -/
def digitsValue (base acc : Nat) : List Char → Option Nat
  | [] => some acc
  | c :: cs =>
    match digitValue base c with
    | some d => digitsValue base (acc * base + d) cs
    | none => none

/-- A number in decimal or `0x` hex; none for a text that is no number. -/
def numberOf : List Char → Option Nat
  | [] => none
  | '0' :: 'x' :: c :: cs => digitsValue 16 0 (c :: cs)
  | c :: cs => digitsValue 10 0 (c :: cs)

/-- A value that fits 32 bits, else the line is refused. -/
def asmWord (cs : List Char) : Option Word :=
  match numberOf cs with
  | some n => if n < 2 ^ 32 then some (BitVec.ofNat 32 n) else none
  | none => none

/-- An index 0 to 15, else the line is refused. -/
def asmIndex (cs : List Char) : Option Index :=
  match numberOf cs with
  | some n => if h : n < 16 then some ⟨n, h⟩ else none
  | none => none

/-- A round count 0 to 255; the engine rejects the illegal ones. -/
def asmRounds (cs : List Char) : Option (BitVec 8) :=
  match numberOf cs with
  | some n => if n < 256 then some (BitVec.ofNat 8 n) else none
  | none => none

/-- A layout name. -/
def asmLayout : List Char → Option Layout
  | ['d', 'j', 'b'] => some .djb
  | ['i', 'e', 't', 'f'] => some .ietf
  | _ => none

/-- A combine mode name. -/
def asmMode : List Char → Option Mode
  | ['x', 'o', 'r'] => some .xor
  | ['c', 'o', 'p', 'y'] => some .copy
  | _ => none

/-- The mnemonic of an opcode in capitals. -/
def mnemonicOf : Opcode → List Char
  | .nop => ['N', 'O', 'P']
  | .init => ['I', 'N', 'I', 'T']
  | .clear => ['C', 'L', 'E', 'A', 'R']
  | .rdstat => ['R', 'D', 'S', 'T', 'A', 'T']
  | .clrerr => ['C', 'L', 'R', 'E', 'R', 'R']
  | .wrs => ['W', 'R', 'S']
  | .rds => ['R', 'D', 'S']
  | .wrctr => ['W', 'R', 'C', 'T', 'R']
  | .rdctr => ['R', 'D', 'C', 'T', 'R']
  | .ldw => ['L', 'D', 'W']
  | .wrw => ['W', 'R', 'W']
  | .rdw => ['R', 'D', 'W']
  | .qr => ['Q', 'R']
  | .colr => ['C', 'O', 'L', 'R']
  | .diagr => ['D', 'I', 'A', 'G', 'R']
  | .perm => ['P', 'E', 'R', 'M']
  | .ff => ['F', 'F']
  | .ser => ['S', 'E', 'R']
  | .adv => ['A', 'D', 'V']
  | .gen => ['G', 'E', 'N']
  | .flush => ['F', 'L', 'U', 'S', 'H']
  | .produce => ['P', 'R', 'O', 'D', 'U', 'C', 'E']

/-- The command of a mnemonic with its operand texts; none where the assembler refuses the line. -/
def asmCommand : Opcode → List (List Char) → Option Instr
  | .nop, [] => some .nop
  | .init, [l, r] => do return .init (← asmLayout l) (← asmRounds r)
  | .clear, [] => some .clear
  | .rdstat, [] => some .rdstat
  | .clrerr, [] => some .clrerr
  | .wrs, [i, v] => do return .wrs (← asmIndex i) (← asmWord v)
  | .rds, [i] => do return .rds (← asmIndex i)
  | .wrctr, [lo, hi] => do return .wrctr (← asmWord lo) (← asmWord hi)
  | .rdctr, [] => some .rdctr
  | .ldw, [] => some .ldw
  | .wrw, [i, v] => do return .wrw (← asmIndex i) (← asmWord v)
  | .rdw, [i] => do return .rdw (← asmIndex i)
  | .qr, [a, b, c, d] => do
    return .qr (← asmIndex a) (← asmIndex b) (← asmIndex c) (← asmIndex d)
  | .colr, [] => some .colr
  | .diagr, [] => some .diagr
  | .perm, [] => some .perm
  | .ff, [] => some .ff
  | .ser, [] => some .ser
  | .adv, [] => some .adv
  | .gen, [] => some .gen
  | .flush, [] => some .flush
  | .produce, [m, a, l] => do return .produce (← asmMode m) (← asmWord a) (← asmWord l)
  | _, _ => none

/-- The words of one line: none where the assembler refuses it, no word for an empty line. -/
def assembleLine (line : List Char) : Option (List Word) :=
  match trimBlanks (withoutComment line) with
  | [] => some []
  | c :: cs =>
    let name := (c :: cs).takeWhile fun x => !isBlank x
    let ops := splitOperands ((c :: cs).dropWhile fun x => !isBlank x)
    let upper := name.map Char.toUpper
    if upper = ['.', 'W', 'O', 'R', 'D'] then
      match ops with
      | [v] => (asmWord v).map ([·])
      | _ => none
    else
      match Opcode.all.find? fun op => mnemonicOf op == upper with
      | some op => (asmCommand op ops).map encode
      | none => none

/-- The words of a program text, line after line. -/
def assemble : List (List Char) → Option (List Word)
  | [] => some []
  | line :: lines => do
    let ws ← assembleLine line
    let rest ← assemble lines
    return ws ++ rest

end Sys2Proof.Machine
end

