-- ==== Sys2Proof/Machine/HostMacros.lean ====
section
/-! DEFINITION. What a host composes from commands: the byte conversions (43_state_access.md R180 to R182) and the
pseudo-instructions (30_encoding.md R87), each the list of the commands it expands to. -/

namespace Sys2Proof.Machine

/-! ### Byte conversions -/

/-- `bytes_to_words` (R180), none for a length that is no multiple of 4. -/
def bytesToWords : List Byte → Option (List Word)
  | [] => some []
  | b0 :: b1 :: b2 :: b3 :: bs => (bytesToWords bs).map (le32 b0 b1 b2 b3 :: ·)
  | _ => none

/-- `words_to_bytes` (R180). -/
def wordsToBytes (ws : List Word) : List Byte :=
  ws.flatMap bytesLE

/-- Word `j` of a byte string of `4n` bytes (R180). -/
def wordOfBytes {n : Nat} (b : Vector Byte (4 * n)) (j : Fin n) : Word :=
  le32 (b[4 * j.val]'(by omega)) (b[4 * j.val + 1]'(by omega)) (b[4 * j.val + 2]'(by omega))
    (b[4 * j.val + 3]'(by omega))

/-- A counter value as (LO, HI) words; a DJB nonce given as a 64-bit integer splits the same way (R182). -/
def counterWords (v : BitVec 64) : Word × Word :=
  (v.extractLsb' 0 32, v.extractLsb' 32 32)

/-- A 32-bit value read from DMEM, little-endian (R184); past DMEM_SIZE a DESIGN CHOICE (notes/assumptions/14.md). -/
def readU32 (m : Memory) (a : Nat) : Word :=
  le32 (Memory.read m a) (Memory.read m (a + 1)) (Memory.read m (a + 2)) (Memory.read m (a + 3))

/-- A 64-bit value read from DMEM, little-endian (R184, R87); past DMEM_SIZE a DESIGN CHOICE (notes/assumptions/14.md). -/
def readU64 (m : Memory) (a : Nat) : BitVec 64 :=
  readU32 m (a + 4) ++ readU32 m a

/-! ### Pseudo-instructions -/

/-- `DROUND`. -/
def droundCommands : List Instr :=
  [.colr, .diagr]

/-- `BLOCK`. -/
def blockCommands : List Instr :=
  [.gen]

/-- The sub-steps `BLOCK` is equivalent to (R139). -/
def blockSubSteps : List Instr :=
  [.ldw, .perm, .ff, .ser, .adv]

/-- `SETCONST c0, c1, c2, c3`. -/
def setConstCommands (c0 c1 c2 c3 : Word) : List Instr :=
  [.wrs 0 c0, .wrs 1 c1, .wrs 2 c2, .wrs 3 c3]

/-- `SETKEY k[0..32]` (R180). -/
def setKeyCommands (k : Vector Byte (4 * 8)) : List Instr :=
  (List.finRange 8).map fun j => .wrs ⟨4 + j.val, by omega⟩ (wordOfBytes k j)

/-- `SETNONCE.djb n[0..8]` (R181). -/
def setNonceDjbCommands (n : Vector Byte (4 * 2)) : List Instr :=
  (List.finRange 2).map fun j => .wrs ⟨14 + j.val, by omega⟩ (wordOfBytes n j)

/-- `SETNONCE.ietf n[0..12]` (R181). -/
def setNonceIetfCommands (n : Vector Byte (4 * 3)) : List Instr :=
  (List.finRange 3).map fun j => .wrs ⟨13 + j.val, by omega⟩ (wordOfBytes n j)

/-- `SETCTR v` (R182); in IETF layout v < 2^32. -/
def setCtrCommands (v : BitVec 64) : List Instr :=
  [.wrctr (counterWords v).1 (counterWords v).2]

/-- `SEEK v`. -/
def seekCommands (v : BitVec 64) : List Instr :=
  setCtrCommands v ++ [.flush]

/-- `ENCRYPT addr, len` and `DECRYPT addr, len`, the same call (R151). -/
def encryptCommands (addr len : Word) : List Instr :=
  [.produce .xor addr len]

/-- `FILL addr, len`. -/
def fillCommands (addr len : Word) : List Instr :=
  [.produce .copy addr len]

/-- `NEXT_U32 addr` (R184); the host then reads `readU32` there. -/
def nextU32Commands (addr : Word) : List Instr :=
  [.produce .copy addr 4]

/-- `NEXT_U64 addr` (R184); the host then reads `readU64` there. -/
def nextU64Commands (addr : Word) : List Instr :=
  [.produce .copy addr 8]

/-- Executes a list of commands in order (R62), up to the first that does not answer a next state. -/
def runCommands : List Instr → State → Host.Outcome State Fault Refusal
  | [], s => .next s
  | i :: is, s =>
    match exec i s with
    | .next t => runCommands is t
    | .fault r => .fault r
    | .refused r => .refused r

/-- One PRODUCE for each length, at consecutive addresses (R156). -/
def chunkCommands (mode : Mode) : Word → List Word → List Instr
  | _, [] => []
  | addr, len :: lens => .produce mode addr len :: chunkCommands mode (addr + len) lens

end Sys2Proof.Machine
end

