-- ==== Sys2Proof/WellFormed.lean ====
section
/-! DEFINITION. When a command spells an operation that some engine executes (90_conflicts.md C2: a rejection is
for a word "the source's types cannot express"). Index, layout and mode fields are legal by their types
(R75 to R78); two operands can still be outside what any engine accepts. An ill-formed command is no
error of the model: it decodes, and the engine rejects it in every state. -/

namespace Sys2Proof

/-- The round counts INIT accepts: "legal values 8, 12, 20" (R77, R9). -/
def legalRoundCount (r : BitVec 8) : Bool :=
  r == 8 || r == 12 || r == 20

/-- A byte range that fits the largest DMEM, 2^32 bytes (R10, R60), on unbounded integers. -/
def rangeFitsSomeDmem (addr len : Word) : Bool :=
  decide (addr.toNat + len.toNat ≤ 2 ^ 32)

/-- The command's operands are legal in some engine. -/
def Instr.wellFormed : Instr → Bool
  | .nop => true
  | .init _ rounds => legalRoundCount rounds
  | .clear => true
  | .rdstat => true
  | .clrerr => true
  | .wrs _ _ => true
  | .rds _ => true
  | .wrctr _ _ => true
  | .rdctr => true
  | .ldw => true
  | .wrw _ _ => true
  | .rdw _ => true
  | .qr _ _ _ _ => true
  | .colr => true
  | .diagr => true
  | .perm => true
  | .ff => true
  | .ser => true
  | .adv => true
  | .gen => true
  | .flush => true
  | .produce _ addr len => rangeFitsSomeDmem addr len

end Sys2Proof
end

