-- ==== Sys2Proof/Safety.lean ====
section
/-! DEFINITION. What claims are stated in: the invariant, the causes of rejection by the spec's own list, the keystream
of a state, and when two states look alike to the host. Where a definition restates a rule that the machine also follows,
it is written on its own from the rule, not over the machine's function. -/

namespace Sys2Proof

open Sys2Proof.Machine

/-! ### The invariant -/

/-- What every step keeps: DMEM is in canonical form and inside DMEM_SIZE; once INITED the round count is legal (R107);
ERRCODE is 0 exactly while ERR is 0, and never above 6 (R33, U9); and a parser inside a command still
awaits a word of it (R37). POS lies in 0..64 by its type (R30). -/
structure Inv (s : State) : Prop where
  dmem_wf : Memory.wf s.dmem
  dmem_inside : Memory.inside s.dmem s.dmemSize.val
  rounds_legal : s.status.inited = true → legalRoundCount s.cfg.rounds = true
  errcode_zero : s.status.err = false → s.status.errcode = 0
  errcode_code : s.status.err = true → 1 ≤ s.status.errcode ∧ s.status.errcode ≤ 6
  parse_awaits : ∀ h got, s.parse = .operands h got → got.length < operandCountOf h

/-! ### Rejection, from R211 and R215 -/

/-- The commands that need STATUS.INITED = 1: all but NOP, INIT, CLEAR, RDSTAT and CLRERR (R217). -/
def needsInit : Instr → Bool
  | .nop => false
  | .init _ _ => false
  | .clear => false
  | .rdstat => false
  | .clrerr => false
  | .wrs _ _ => true
  | .rds _ => true
  | .wrctr _ _ => true
  | .rdctr => true
  | .ldw => true
  | .wrw _ _ => true
  | .rdw _ => true
  | .qr _ _ _ _ => true
  | .colr => true
  | .diagr => true
  | .perm => true
  | .ff => true
  | .ser => true
  | .adv => true
  | .gen => true
  | .flush => true
  | .produce _ _ _ => true

/-- A command's own check (R211 codes 4 to 6), none where it passes or the command has none. -/
def ownCheck (s : State) : Instr → Option RejectCode
  | .init _ r => if r.toNat ∈ [8, 12, 20] then none else some .badRounds
  | .wrctr _ hi => if s.cfg.layout = .ietf ∧ hi ≠ 0 then some .badOperand else none
  | .produce _ addr len => if addr.toNat + len.toNat > s.dmemSize.val then some .range else none
  | .nop => none
  | .clear => none
  | .rdstat => none
  | .clrerr => none
  | .wrs _ _ => none
  | .rds _ => none
  | .rdctr => none
  | .ldw => none
  | .wrw _ _ => none
  | .rdw _ => none
  | .qr _ _ _ _ => none
  | .colr => none
  | .diagr => none
  | .perm => none
  | .ff => none
  | .ser => none
  | .adv => none
  | .gen => none
  | .flush => none

/-- Why a decoded command is rejected, NOT_INIT before the command's own check (R215 causes 3 and 4). -/
def rejectCause (s : State) (i : Instr) : Option RejectCode :=
  if needsInit i ∧ s.status.inited = false then some .notInit else ownCheck s i

/-- A row of the opcode map (R81): number, bits of ARGS that must be 0 (R85), operand words (R73). -/
structure OpcodeRow where
  number : BitVec 8
  reserved : BitVec 24
  operands : Nat
deriving DecidableEq, Repr

/-- The opcode map of R81, by number. -/
def opcodeRows : List OpcodeRow :=
  [⟨0x00, 0xFFFFFF, 0⟩, ⟨0x01, 0xFFFE00, 0⟩, ⟨0x02, 0xFFFFFF, 0⟩, ⟨0x03, 0xFFFFFF, 0⟩, ⟨0x04, 0xFFFFFF, 0⟩,
   ⟨0x08, 0xFFFFF0, 1⟩, ⟨0x09, 0xFFFFF0, 0⟩, ⟨0x0A, 0xFFFFFF, 2⟩, ⟨0x0B, 0xFFFFFF, 0⟩, ⟨0x10, 0xFFFFFF, 0⟩,
   ⟨0x11, 0xFFFFF0, 1⟩]
  ++ [⟨0x12, 0xFFFFF0, 0⟩, ⟨0x13, 0xFF0000, 0⟩, ⟨0x14, 0xFFFFFF, 0⟩, ⟨0x15, 0xFFFFFF, 0⟩, ⟨0x16, 0xFFFFFF, 0⟩,
   ⟨0x17, 0xFFFFFF, 0⟩, ⟨0x20, 0xFFFFFF, 0⟩, ⟨0x21, 0xFFFFFF, 0⟩, ⟨0x22, 0xFFFFFF, 0⟩, ⟨0x23, 0xFFFFFF, 0⟩,
   ⟨0x24, 0xFFFFFE, 2⟩]

/-- The engine is at a header boundary, and the next words on the command port are a header and the operand
words given, `rest` after them. -/
def Offers (s : State) (h : Word) (ops : List Word) (rest : List Input) : Prop :=
  s.parse = .header ∧ s.input = .word h :: ops.map .word ++ rest

/-- A header with this OP and a reserved bit set is rejected with RESERVED after its operand words are taken (R83),
in every state. -/
def ReservedBitsRejected (op : BitVec 8) (reserved : BitVec 24) (operands : Nat) : Prop :=
  ∀ (s : State) (h : Word) (ops : List Word) (rest : List Input), Offers s h ops rest → ops.length = operands →
    h.extractLsb' 24 8 = op → h.extractLsb' 0 24 &&& reserved ≠ 0 →
    step s = .next (State.record { s with input := rest } .reserved)

/-- The command is the header with this OP and these ARGS, read as a number with its reserved bits 0, and these operand
words after it (R71, R72, R74 to R78). -/
def SpelledAs (i : Instr) (op : BitVec 8) (args : Nat) (operands : List Word) : Prop :=
  (encodeHeader i).toNat = op.toNat * 2 ^ 24 + args ∧ encodeOperands i = operands

/-- The command is rejected with NOT_INIT while STATUS.INITED = 0 (R217). -/
def GatedByInited (i : Instr) : Prop :=
  ∀ s : State, s.status.inited = false → exec i s = .next (s.record .notInit)

/-! ### The quarter round as a list of statements (R100) -/

/-- A statement of the quarter round's pseudocode. -/
inductive MixStatement where
  /-- `X[p] <- X[p] +32 X[q]` -/
  | add (p q : Index)
  /-- `X[p] <- X[p] ^ X[q]` -/
  | xor (p q : Index)
  /-- `X[p] <- rotl32(X[p], n)` -/
  | rotl (p : Index) (n : Nat)
deriving DecidableEq, Repr

/-- Runs one statement. -/
def MixStatement.run (X : Words) : MixStatement → Words
  | .add p q => X.set p (X[p] + X[q])
  | .xor p q => X.set p (X[p] ^^^ X[q])
  | .rotl p n => X.set p (X[p].rotateLeft n)

/-- The twelve statements of R100, in order. -/
def quarterRoundStatements (a b c d : Index) : List MixStatement :=
  [.add a b, .xor d a, .rotl d 16, .add c d, .xor b c, .rotl b 12,
   .add a b, .xor d a, .rotl d 8, .add c d, .xor b c, .rotl b 7]

/-- The index quadruples of a column round (R101). -/
def columnQuadruples : List (Index × Index × Index × Index) :=
  [(0, 4, 8, 12), (1, 5, 9, 13), (2, 6, 10, 14), (3, 7, 11, 15)]

/-- The index quadruples of a diagonal round (R102). -/
def diagonalQuadruples : List (Index × Index × Index × Index) :=
  [(0, 5, 10, 15), (1, 6, 11, 12), (2, 7, 8, 13), (3, 4, 9, 14)]

/-- Quarter rounds on the quadruples of a list, in order. -/
def quarterRounds (qs : List (Index × Index × Index × Index)) (X : Words) : Words :=
  qs.foldl (fun X q => qrF X q.1 q.2.1 q.2.2.1 q.2.2.2) X

/-! ### The keystream of a state -/

/-- The number of counter values of a layout (R27). -/
def counterModulus : Layout → Nat
  | .djb => 2 ^ 64
  | .ietf => 2 ^ 32

/-- The counter `CTR` (R25, R26). -/
def counterOf (s : State) : Nat :=
  match s.cfg.layout with
  | .djb => s.S[13].toNat * 2 ^ 32 + s.S[12].toNat
  | .ietf => s.S[12].toNat

/-- The state words with the counter at `v`, reduced to its width (R25, R26). -/
def wordsAtCounter (s : State) (v : Nat) : Words :=
  match s.cfg.layout with
  | .djb => (s.S.set 12 (BitVec.ofNat 32 v)).set 13 (BitVec.ofNat 32 (v / 2 ^ 32))
  | .ietf => s.S.set 12 (BitVec.ofNat 32 v)

/-- The output words of the block of counter value `v` (R133), with the state's key, nonce, constants and rounds. -/
def outputWordsAt (s : State) (v : Nat) : Words :=
  blockWords (wordsAtCounter s v) s.cfg.rounds.toNat

/-- The block of counter value `v`. -/
def blockAt (s : State) (v : Nat) : Block :=
  serF (outputWordsAt s v)

/-- Byte `n` of the keystream `K` that starts at the block of the current counter (R155). -/
def keystreamByte (s : State) (n : Nat) : Byte :=
  (blockAt s (counterOf s + n / 64))[n % 64]'(Nat.mod_lt _ (by decide))

/-- Bytes `off` to `off + len - 1` of the keystream. -/
def keystreamBytes (s : State) (off len : Nat) : List Byte :=
  (List.range len).map fun i => keystreamByte s (off + i)

/-- The operands of a PRODUCE. -/
abbrev ProduceRequest := Mode × Word × Word

/-- How many bytes a list of PRODUCEs asks for. -/
def bytesAsked (reqs : List ProduceRequest) : Nat :=
  (reqs.map fun r => r.2.2.toNat).sum

/-- DMEM after the keystream of `s`, from byte `off` on, has been handed out to the requests in order. -/
def handedOut (s : State) (off : Nat) : List ProduceRequest → Memory → Memory
  | [], m => m
  | (mode, addr, len) :: reqs, m =>
    handedOut s (off + len.toNat) reqs
      (combineBytes mode m addr.toNat (keystreamBytes s off len.toNat))

/-- The number of bytes a PRODUCE takes from the buffer (R159). -/
def bufferedBytes (s : State) (len : Nat) : Nat :=
  if s.pos.val < 64 then min len (64 - s.pos.val) else 0

/-! ### Two states that look alike -/

/-- The states differ at most in what B holds while POS = 64 (R158, U3). -/
def SameButStaleBuffer (s t : State) : Prop :=
  t = { s with B := t.B } ∧ (s.pos.val < 64 → t.B = s.B)

/-- The states agree on all but S, W, B, POS and CFG, and on those too once INITED = 1 (R39, U1). -/
def SameButHiddenReset (s t : State) : Prop :=
  t = { s with S := t.S, W := t.W, B := t.B, pos := t.pos, cfg := t.cfg }
    ∧ (s.status.inited = true → t = s)

/-- The outcomes are next states related by `R`, or the same stop. -/
def RelatedOutcomes (R : State → State → Prop) : Host.Outcome State Fault Refusal → Host.Outcome State Fault Refusal → Prop
  | .next s, .next t => R s t
  | .fault r, .fault q => r = q
  | .refused r, .refused q => r = q
  | .next _, .fault _ => False
  | .next _, .refused _ => False
  | .fault _, .next _ => False
  | .fault _, .refused _ => False
  | .refused _, .next _ => False
  | .refused _, .fault _ => False

end Sys2Proof
end

