-- ==== Sys2Proof/Certificates/Slice0/Obligations.lean ====
section
/-! DEFINITION. The statements for the provers. Each docstring names the rule of the spec it formalises. -/

open Sys2Proof Sys2Proof.Machine

/-! ### Encoding and decoding -/

/-- Words of 95_test_vectors.md 2.1 decode to the commands written beside them there. -/
def Obligations.SampleWordsDecode : Prop :=
  decode [0x00000000] = .command .nop []
    ∧ decode [0x01000114] = .command (.init .ietf 20) []
    ∧ decode [0x0100000c] = .command (.init .djb 12) []
    ∧ decode [0x0800000d, 0x09000000] = .command (.wrs 13 0x09000000) []
    ∧ decode [0x0900000c] = .command (.rds 12) []
    ∧ decode [0x0a000000, 1, 0] = .command (.wrctr 1 0) []
    ∧ decode [0x11000003, 0x01234567] = .command (.wrw 3 0x01234567) []
    ∧ decode [0x1300278d] = .command (.qr 2 7 8 13) []
    ∧ decode [0x24000001, 0, 0x40] = .command (.produce .copy 0 64) []
    ∧ decode [0x30000000] = .rejected .illegalOp []
    ∧ decode [0x08000010, 0xdeadbeef] = .rejected .reserved []
    ∧ decode [0x01000214] = .rejected .reserved []
    ∧ decode [0x13010000] = .rejected .reserved []
    ∧ decode [0x24000002, 0, 4] = .rejected .reserved []

/-- R73: the operand count is a function of OP alone, and the parser takes the header and that many words, neither
more nor fewer, whatever ARGS and the words are. -/
def Obligations.OperandCountIsAFunctionOfOpcode : Prop :=
  (∀ h : Word, operandCountOf h =
      if h.extractLsb' 24 8 ∈ [(0x08 : BitVec 8), 0x11] then 1
      else if h.extractLsb' 24 8 ∈ [(0x0A : BitVec 8), 0x24] then 2
      else 0)
    ∧ (∀ (h : Word) (ops : List Word), ops.length < operandCountOf h → decode (h :: ops) = .incomplete)
    ∧ (∀ (h : Word) (ops rest : List Word), ops.length = operandCountOf h →
        (∃ i, decode (h :: ops ++ rest) = .command i rest) ∨ ∃ c, decode (h :: ops ++ rest) = .rejected c rest)

/-- R82: a header whose OP is not in the opcode map is rejected with ILLEGAL_OP, no operand word is taken, and the
next word is parsed as a header. -/
def Obligations.UnassignedOpcodesAreIllegal : Prop :=
  ∀ (s : State) (h : Word) (rest : List Input), Offers s h [] rest →
    h.extractLsb' 24 8 ∉ opcodeRows.map OpcodeRow.number →
    step s = .next (State.record { s with parse := .header, input := rest } .illegalOp)

/-- R83: a header with an assigned OP and a reserved ARGS bit set is rejected with RESERVED after its operand words
are taken. -/
def Obligations.ReservedBitsAreRejected : Prop :=
  ∀ row ∈ opcodeRows, ReservedBitsRejected row.number row.reserved row.operands

/-- Decoding gives back every command, whatever words follow: no operand bit is dropped by either direction. -/
def Obligations.DecodeEncodeRoundTrip : Prop :=
  ∀ (i : Instr) (rest : List Word), decode (encode i ++ rest) = .command i rest

/-- A list of words that decodes to a command is that command's own words: two word streams never spell one command. -/
def Obligations.DecodedWordsAreTheEncoding : Prop :=
  ∀ (ws : List Word) (i : Instr) (rest : List Word), decode ws = .command i rest → ws = encode i ++ rest

/-! ### The step -/

/-- When the words the parser holds and the next words on the command port decode to a command, the step is the
command's execution, the words taken and the parser back at a header boundary. -/
def Obligations.StepRunsTheDecodedCommand : Prop :=
  (∀ (s : State) (i : Instr) (rest : List Input), s.parse = .header → s.input = (encode i).map .word ++ rest →
      step s = exec i { s with input := rest })
    ∧ (∀ (s : State) (ws : List Word) (i : Instr) (rest : List Input), Inv s → ws ≠ [] →
        decode (s.parse.taken ++ ws) = .command i [] → s.input = ws.map .word ++ rest →
        step s = exec i { s with parse := .header, input := rest })

/-- R219: a command whose operand words have not all arrived is not executed and not rejected: the parser keeps the words
it took, nothing else changes, and with nothing more to come the engine is stuck; words that arrive later complete it. -/
def Obligations.IncompleteCommandWaits : Prop :=
  ∀ (s : State) (ws : List Word), s.parse = .header → ws ≠ [] → decode ws = .incomplete →
    s.input = ws.map .word →
    step s = .next { s with parse := parseOf ws, input := [] }
      ∧ step { s with parse := parseOf ws, input := [] } = .fault .awaitingOperands
      ∧ ∀ (more : List Word) (i : Instr), decode (ws ++ more) = .command i [] →
          step (State.supplyWords { s with parse := parseOf ws, input := [] } more)
            = exec i { s with parse := .header, input := [] }

/-- R229: the engine is idle whenever no command is pending and keeps all state while idle. -/
def Obligations.IdleEngineKeepsAllState : Prop :=
  ∀ s : State, s.parse = .header → s.input = [] → step s = .next s

/-- What the host does while no command executes (R36, R52): a DMEM write changes its byte only, a response is taken from the
head of RESPQ, and everything else is kept. The model's choices: this holds for every parser position, so also while operand words
are awaited (notes/assumptions/6.md, DEDUCED), a write past DMEM stops (notes/assumptions/7.md), and a reset keeps what the host has
yet to do (notes/assumptions/9.md). -/
def Obligations.HostActionsBetweenCommands : Prop :=
  (∀ (s : State) (a : Word) (v : Byte) (rest : List Input), Memory.wf s.dmem →
      s.input = .dmemWrite a v :: rest → a.toNat < s.dmemSize.val →
      ∃ t, step s = .next t ∧ Memory.read t.dmem a.toNat = v
        ∧ (∀ b, b ≠ a.toNat → Memory.read t.dmem b = Memory.read s.dmem b)
        ∧ t = { s with dmem := t.dmem, input := rest })
    ∧ (∀ (s : State) (a : Word) (v : Byte) (rest : List Input),
        s.input = .dmemWrite a v :: rest → ¬ a.toNat < s.dmemSize.val → step s = .fault .noSuchAddress)
    ∧ (∀ (s : State) (w : Word) (q : List Word) (rest : List Input),
        s.input = .takeResponse :: rest → s.respq = w :: q →
        step s = .next { s with respq := q, input := rest })
    ∧ (∀ (s : State) (rest : List Input), s.input = .reset :: rest →
        ∃ t, step s = .next t ∧ t.dmem = s.dmem ∧ t.dmemSize = s.dmemSize ∧ t.input = rest)

/-- R240: a hardware reset clears INITED, ERR and ERRCODE, empties RESPQ and brings the parser to a header boundary, a
command in progress abandoned; DMEM is untouched. Nothing is said of S, W, B, POS and CFG. -/
def Obligations.HardwareResetAbandonsTheCommand : Prop :=
  ∀ (s : State) (rest : List Input), s.input = .reset :: rest →
    ∃ t, step s = .next t ∧ t.status.inited = false ∧ t.status.err = false ∧ t.status.errcode = 0
      ∧ t.respq = [] ∧ t.parse = .header ∧ t.dmem = s.dmem ∧ t.dmemSize = s.dmemSize

/-- R39: the values the reset state has by the spec. -/
def Obligations.ResetStateHasTheSpecsValues : Prop :=
  State.reset.status.inited = false ∧ State.reset.status.err = false ∧ State.reset.status.errcode = 0
    ∧ State.reset.respq = [] ∧ State.reset.parse = .header

/-! ### Rejection -/

/-- R212: ERRCODE takes the code of the first rejection since ERR was cleared, ERR is set, and nothing else changes. The codes
are the numbers of R211. -/
def Obligations.RecordKeepsTheFirstCode : Prop :=
  (∀ (s : State) (c : RejectCode),
    (s.status.err = false → (s.record c).status.errcode = codeNumber c)
      ∧ (s.status.err = true → (s.record c).status.errcode = s.status.errcode)
      ∧ (s.record c).status.err = true
      ∧ s.record c = { s with status := { s.status with
          err := true, errcode := (s.record c).status.errcode } })
    ∧ codeNumber .illegalOp = 1 ∧ codeNumber .reserved = 2 ∧ codeNumber .notInit = 3
    ∧ codeNumber .badRounds = 4 ∧ codeNumber .badOperand = 5 ∧ codeNumber .range = 6

/-- R213, R215: a decoded command with a cause of rejection has no effect but the record of the first cause, NOT_INIT
before its own check; a command with none answers a next state and leaves ERR and ERRCODE as they were, unless it is
CLRERR. -/
def Obligations.ExecRejectsExactlyForItsFirstCause : Prop :=
  (∀ (i : Instr) (s : State) (c : RejectCode), rejectCause s i = some c → exec i s = .next (s.record c))
    ∧ (∀ (i : Instr) (s : State), rejectCause s i = none → i ≠ .clrerr →
        ∃ t, exec i s = .next t ∧ t.status.err = s.status.err ∧ t.status.errcode = s.status.errcode)
    ∧ (∀ s : State, ∃ t, exec .clrerr s = .next t ∧ t.status.err = false ∧ t.status.errcode = 0)

/-- R217: every command but NOP, INIT, CLEAR, RDSTAT and CLRERR is rejected with NOT_INIT while STATUS.INITED = 0. -/
def Obligations.CommandsAreGatedByInited : Prop :=
  ∀ (i : Instr) (s : State), s.status.inited = false →
    i ≠ .nop → (∀ l r, i ≠ .init l r) → i ≠ .clear → i ≠ .rdstat → i ≠ .clrerr →
    exec i s = .next (s.record .notInit)

/-- R214: the next command executes normally whether or not ERR = 1: another error record changes nothing of what a
command does, but for the one word RDSTAT appends to RESPQ. -/
def Obligations.ErrorRecordDoesNotChangeExecution : Prop :=
  ∀ (i : Instr) (s : State) (e : Bool) (c : BitVec 4),
    ∃ t u, exec i s = .next t
      ∧ exec i { s with status := { s.status with err := e, errcode := c } } = .next u
      ∧ t.status.inited = u.status.inited
      ∧ t = { u with status := t.status, respq := t.respq }
      ∧ (i ≠ .rdstat → t.respq = u.respq)
      ∧ (i = .rdstat → ∃ v w : Word, t.respq = s.respq ++ [v] ∧ u.respq = s.respq ++ [w])

/-- R216, R137: counter overflow is never a rejection, nor is any data value of WRS, WRW, or WRCTR in DJB layout: on an
initialised engine these commands leave STATUS as it was. -/
def Obligations.DataValuesAreNeverRejected : Prop :=
  ∀ s : State, s.status.inited = true →
    (∀ i ∈ [Instr.adv, .gen], ∃ t, exec i s = .next t ∧ t.status = s.status)
      ∧ (∀ (i : Index) (v : Word), ∃ t, exec (.wrs i v) s = .next t ∧ t.status = s.status)
      ∧ (∀ (i : Index) (v : Word), ∃ t, exec (.wrw i v) s = .next t ∧ t.status = s.status)
      ∧ (s.cfg.layout = .djb → ∀ lo hi : Word, ∃ t, exec (.wrctr lo hi) s = .next t ∧ t.status = s.status)
      ∧ (∀ (m : Mode) (a l : Word) (d : Memory), a.toNat + l.toNat ≤ s.dmemSize.val →
          ∃ t, exec (.produce m a l) { s with dmem := d } = .next t ∧ t.status = s.status)

/-! ### The functions of the permutation and of the block core -/

/-- R100: the quarter round is the twelve statements in order, whatever indices repeat; on distinct indices the four words
it names take the values below, and no other word changes. -/
def Obligations.QuarterRoundIsItsTwelveStatements : Prop :=
  (∀ (X : Words) (a b c d : Index),
      qrF X a b c d = (quarterRoundStatements a b c d).foldl MixStatement.run X)
    ∧ (∀ (X : Words) (a b c d j : Index), j ∉ [a, b, c, d] → (qrF X a b c d)[j] = X[j])
    ∧ (∀ (X : Words) (a b c d : Index), [a, b, c, d].Nodup →
        let a1 := X[a] + X[b]
        let d1 := (X[d] ^^^ a1).rotateLeft 16
        let c1 := X[c] + d1
        let b1 := (X[b] ^^^ c1).rotateLeft 12
        let a2 := a1 + b1
        let d2 := (d1 ^^^ a2).rotateLeft 8
        let c2 := c1 + d2
        let b2 := (b1 ^^^ c2).rotateLeft 7
        (qrF X a b c d)[a] = a2 ∧ (qrF X a b c d)[b] = b2 ∧ (qrF X a b c d)[c] = c2 ∧ (qrF X a b c d)[d] = d2)

/-- R101, R102: a column round and a diagonal round are quarter rounds on their four quadruples, in any order. -/
def Obligations.RoundsAreQuarterRoundsInAnyOrder : Prop :=
  ∀ (X : Words) (qs : List (Index × Index × Index × Index)),
    (qs.Perm columnQuadruples → quarterRounds qs X = colrF X)
      ∧ (qs.Perm diagonalQuadruples → quarterRounds qs X = diagrF X)

/-- R103: the permutation alternates column and diagonal rounds starting with column, so that an even number of rounds is
half as many double rounds. -/
def Obligations.PermutationAlternatesRounds : Prop :=
  ∀ X : Words,
    permF X 0 = X
      ∧ (∀ k, permF X (2 * k + 1) = colrF (permF X (2 * k)))
      ∧ (∀ k, permF X (2 * k + 2) = diagrF (permF X (2 * k + 1)))
      ∧ (∀ m, permF X (2 * m) = (fun Y => diagrF (colrF Y))^[m] X)

/-- R132: byte 4i + j of the serialization is byte j of word i, least significant first. -/
def Obligations.SerializationIsLittleEndianInWordOrder : Prop :=
  ∀ (X : Words) (i : Fin 16) (j : Fin 4),
    (serF X)[4 * i.val + j.val]'(by omega) = X[i].extractLsb' (8 * j.val) 8

/-- R130, R131: the advance adds 1 to the 32-bit counter word in IETF layout, and to the 64-bit counter, low word first, in
DJB layout, wrapping silently; no other word changes. -/
def Obligations.CounterAdvancesByOneAndWraps : Prop :=
  ∀ S : Words,
    (advF .ietf S)[12] = S[12] + 1
      ∧ (∀ j : Index, j ≠ 12 → (advF .ietf S)[j] = S[j])
      ∧ (advF .djb S)[12] = S[12] + 1
      ∧ (advF .djb S)[13].toNat * 2 ^ 32 + (advF .djb S)[12].toNat
          = (S[13].toNat * 2 ^ 32 + S[12].toNat + 1) % 2 ^ 64
      ∧ (∀ j : Index, j ≠ 12 → j ≠ 13 → (advF .djb S)[j] = S[j])
      ∧ (S[12] ≠ 0xFFFFFFFF → (advF .djb S)[13] = S[13])

/-- R140: the block depends only on the state words and the round count, whatever the layout and everything else. -/
def Obligations.BlockDependsOnWordsAndRoundsOnly : Prop :=
  ∀ s t : State, s.status.inited = true → t.status.inited = true → s.S = t.S → s.cfg.rounds = t.cfg.rounds →
    ∃ s' t', exec .gen s = .next s' ∧ exec .gen t = .next t' ∧ s'.B = t'.B ∧ s'.W = t'.W

/-- R139: GEN has the effect of LDW, PERM, FF, SER and ADV in this order. -/
def Obligations.GenIsItsFiveSubSteps : Prop :=
  ∀ s : State, s.status.inited = true →
    ∃ t, runCommands [.ldw, .perm, .ff, .ser, .adv] s = .next t ∧ exec .gen s = .next t

/-- R138: after k block generations the counter reads c + k reduced to its width, and the last of them is the block of
c + k - 1. -/
def Obligations.CounterCountsGeneratedBlocks : Prop :=
  ∀ (s : State) (k : Nat), s.status.inited = true →
    ∃ t, runCommands (List.replicate k .gen) s = .next t
      ∧ counterOf t = (counterOf s + k) % counterModulus s.cfg.layout
      ∧ (0 < k → t.B = blockAt s (counterOf s + (k - 1)) ∧ t.W = outputWordsAt s (counterOf s + (k - 1)))
      ∧ (∀ j : Index, j.val < 12 ∨ 14 ≤ j.val → t.S[j] = s.S[j])
      ∧ (s.cfg.layout = .ietf → t.S[13] = s.S[13])

/-! ### The commands, each with its spelling, its rejections and its effect -/

/-- R190, R195: NOP leaves every piece of state unchanged; CLRERR clears ERR and ERRCODE and nothing else. Both are allowed
before INIT. -/
def Obligations.NopAndClrerr : Prop :=
  SpelledAs .nop 0x00 0 [] ∧ SpelledAs .clrerr 0x04 0 []
    ∧ ReservedBitsRejected 0x00 0xFFFFFF 0 ∧ ReservedBitsRejected 0x04 0xFFFFFF 0
    ∧ (∀ s : State, exec .nop s = .next s)
    ∧ (∀ s : State, exec .clrerr s = .next { s with status := { s.status with err := false, errcode := 0 } })

/-- R191: INIT with 8, 12 or 20 rounds constructs the instance; with any other round count it is rejected and changes nothing
but the record. -/
def Obligations.InitConstructsOrRejects : Prop :=
  (∀ (l : Layout) (r : BitVec 8), SpelledAs (.init l r) 0x01 ((if l = .ietf then 256 else 0) + r.toNat) []) ∧ ReservedBitsRejected 0x01 0xFFFE00 0
    ∧ (∀ (s : State) (l : Layout) (r : BitVec 8), r.toNat ∉ [8, 12, 20] →
        exec (.init l r) s = .next (s.record .badRounds))
    ∧ (∀ (s : State) (l : Layout) (r : BitVec 8), r.toNat ∈ [8, 12, 20] →
        ∃ t, exec (.init l r) s = .next t
          ∧ t.cfg.layout = l ∧ t.cfg.rounds = r
          ∧ t.S[0] = 0x61707865 ∧ t.S[1] = 0x3320646e ∧ t.S[2] = 0x79622d32 ∧ t.S[3] = 0x6b206574
          ∧ (∀ j : Index, 4 ≤ j.val → t.S[j] = 0)
          ∧ (∀ j : Index, t.W[j] = 0) ∧ (∀ j : Fin 64, t.B[j] = 0) ∧ t.pos = 64
          ∧ t.status.inited = true ∧ t.status.err = s.status.err ∧ t.status.errcode = s.status.errcode
          ∧ t = { s with cfg := t.cfg, S := t.S, W := t.W, B := t.B, pos := t.pos, status := t.status })

/-- R193: CLEAR zeroes S, the constants too, W and B and sets POS to 64; CFG, STATUS, DMEM and RESPQ are kept, and it is allowed
before INIT. -/
def Obligations.ClearZeroesKeyBearingState : Prop :=
  SpelledAs .clear 0x02 0 [] ∧ ReservedBitsRejected 0x02 0xFFFFFF 0
    ∧ ∀ s : State, ∃ t, exec .clear s = .next t
        ∧ (∀ j : Index, t.S[j] = 0) ∧ (∀ j : Index, t.W[j] = 0) ∧ (∀ j : Fin 64, t.B[j] = 0) ∧ t.pos = 64
        ∧ t = { s with S := t.S, W := t.W, B := t.B, pos := t.pos }

/-- R194, R34: RDSTAT responds the status image, its CFG and POS fields 0 while INITED = 0, and clears nothing. -/
def Obligations.RdstatRespondsTheStatusImage : Prop :=
  SpelledAs .rdstat 0x03 0 [] ∧ ReservedBitsRejected 0x03 0xFFFFFF 0
    ∧ ∀ s : State, ∃ v : Word, exec .rdstat s = .next { s with respq := s.respq ++ [v] }
        ∧ v.getLsbD 0 = s.status.inited ∧ v.getLsbD 1 = s.status.err
        ∧ v.extractLsb' 2 2 = 0 ∧ v.extractLsb' 4 4 = s.status.errcode
        ∧ v.getLsbD 8 = (s.status.inited && s.cfg.layout == .ietf)
        ∧ v.extractLsb' 9 7 = 0
        ∧ v.extractLsb' 16 8 = (if s.status.inited then s.cfg.rounds else 0)
        ∧ (v.extractLsb' 24 7).toNat = (if s.status.inited then s.pos.val else 0)
        ∧ v.getLsbD 31 = false

/-- R170, R171: WRS writes one state word whatever its role, RDS responds one; neither touches W, B or POS. -/
def Obligations.WrsAndRdsAccessOneStateWord : Prop :=
  (∀ (i : Index) (v : Word), SpelledAs (.wrs i v) 0x08 i.val [v] ∧ GatedByInited (.wrs i v)) ∧ ReservedBitsRejected 0x08 0xFFFFF0 1
    ∧ (∀ i : Index, SpelledAs (.rds i) 0x09 i.val [] ∧ GatedByInited (.rds i)) ∧ ReservedBitsRejected 0x09 0xFFFFF0 0
    ∧ (∀ (s : State) (i : Index) (v : Word), s.status.inited = true →
        ∃ t, exec (.wrs i v) s = .next t ∧ t.S[i] = v ∧ (∀ j, j ≠ i → t.S[j] = s.S[j]) ∧ t = { s with S := t.S })
    ∧ (∀ (s : State) (i : Index), s.status.inited = true →
        exec (.rds i) s = .next { s with respq := s.respq ++ [s.S[i]] })

/-- R172: WRCTR writes both counter words in DJB layout; in IETF layout it writes S[12] alone and is rejected with BAD_OPERAND
for a nonzero high word. -/
def Obligations.WrctrSetsTheCounterByLayout : Prop :=
  (∀ lo hi, SpelledAs (.wrctr lo hi) 0x0A 0 [lo, hi] ∧ GatedByInited (.wrctr lo hi))
    ∧ ReservedBitsRejected 0x0A 0xFFFFFF 2
    ∧ (∀ (s : State) (lo hi : Word), s.status.inited = true → s.cfg.layout = .djb →
        ∃ t, exec (.wrctr lo hi) s = .next t ∧ t.S[12] = lo ∧ t.S[13] = hi
          ∧ (∀ j : Index, j ≠ 12 → j ≠ 13 → t.S[j] = s.S[j]) ∧ t = { s with S := t.S })
    ∧ (∀ (s : State) (lo : Word), s.status.inited = true → s.cfg.layout = .ietf →
        ∃ t, exec (.wrctr lo 0) s = .next t ∧ t.S[12] = lo
          ∧ (∀ j : Index, j ≠ 12 → t.S[j] = s.S[j]) ∧ t = { s with S := t.S })
    ∧ (∀ (s : State) (lo hi : Word), s.status.inited = true → s.cfg.layout = .ietf → hi ≠ 0 →
        exec (.wrctr lo hi) s = .next (s.record .badOperand))

/-- R173: RDCTR responds the low counter word, then the high one in DJB layout and 0 in IETF layout. -/
def Obligations.RdctrRespondsTheCounterByLayout : Prop :=
  SpelledAs .rdctr 0x0B 0 [] ∧ ReservedBitsRejected 0x0B 0xFFFFFF 0 ∧ GatedByInited .rdctr
    ∧ (∀ s : State, s.status.inited = true → s.cfg.layout = .djb →
        exec .rdctr s = .next { s with respq := s.respq ++ [s.S[12], s.S[13]] })
    ∧ (∀ s : State, s.status.inited = true → s.cfg.layout = .ietf →
        exec .rdctr s = .next { s with respq := s.respq ++ [s.S[12], 0] })

/-- R108, R111: LDW copies S into W; FF adds the current S into W word by word, carries discarded. S is unchanged. -/
def Obligations.LdwCopiesAndFfAddsTheState : Prop :=
  (SpelledAs .ldw 0x10 0 [] ∧ ReservedBitsRejected 0x10 0xFFFFFF 0 ∧ GatedByInited .ldw)
    ∧ (SpelledAs .ff 0x17 0 [] ∧ ReservedBitsRejected 0x17 0xFFFFFF 0 ∧ GatedByInited .ff)
    ∧ (∀ s : State, s.status.inited = true → exec .ldw s = .next { s with W := s.S })
    ∧ (∀ s : State, s.status.inited = true →
        ∃ t, exec .ff s = .next t ∧ (∀ i : Index, t.W[i] = s.W[i] + s.S[i]) ∧ t = { s with W := t.W })

/-- R109, R110: WRW writes one working word, RDW responds one. -/
def Obligations.WrwAndRdwAccessOneWorkingWord : Prop :=
  (∀ (i : Index) (v : Word), SpelledAs (.wrw i v) 0x11 i.val [v] ∧ GatedByInited (.wrw i v)) ∧ ReservedBitsRejected 0x11 0xFFFFF0 1
    ∧ (∀ i : Index, SpelledAs (.rdw i) 0x12 i.val [] ∧ GatedByInited (.rdw i)) ∧ ReservedBitsRejected 0x12 0xFFFFF0 0
    ∧ (∀ (s : State) (i : Index) (v : Word), s.status.inited = true →
        ∃ t, exec (.wrw i v) s = .next t ∧ t.W[i] = v ∧ (∀ j, j ≠ i → t.W[j] = s.W[j]) ∧ t = { s with W := t.W })
    ∧ (∀ (s : State) (i : Index), s.status.inited = true →
        exec (.rdw i) s = .next { s with respq := s.respq ++ [s.W[i]] })

/-- R104: QR runs the twelve statements of the quarter round on W, for all indices, repeated ones too; with A = D the word
is 0 after the first group, so QR with one index four times leaves 0 there. -/
def Obligations.QrRunsOneQuarterRoundOnW : Prop :=
  (∀ a b c d : Index, SpelledAs (.qr a b c d) 0x13 (a.val * 4096 + b.val * 256 + c.val * 16 + d.val) [] ∧ GatedByInited (.qr a b c d)) ∧ ReservedBitsRejected 0x13 0xFF0000 0
    ∧ (∀ (s : State) (a b c d : Index), s.status.inited = true →
        exec (.qr a b c d) s
          = .next { s with W := (quarterRoundStatements a b c d).foldl MixStatement.run s.W })
    ∧ (∀ (s : State) (a : Index), s.status.inited = true →
        ∃ t, exec (.qr a a a a) s = .next t ∧ t.W[a] = 0 ∧ ∀ j, j ≠ a → t.W[j] = s.W[j])

/-- R105, R106, R107: COLR, DIAGR and PERM replace W by its column round, its diagonal round and its permutation of CFG.ROUNDS
rounds, and change nothing else; the all-zero array is a fixed point of COLR and DIAGR. -/
def Obligations.RoundCommandsReplaceW : Prop :=
  (SpelledAs .colr 0x14 0 [] ∧ ReservedBitsRejected 0x14 0xFFFFFF 0 ∧ GatedByInited .colr)
    ∧ (SpelledAs .diagr 0x15 0 [] ∧ ReservedBitsRejected 0x15 0xFFFFFF 0 ∧ GatedByInited .diagr)
    ∧ (SpelledAs .perm 0x16 0 [] ∧ ReservedBitsRejected 0x16 0xFFFFFF 0 ∧ GatedByInited .perm)
    ∧ (∀ s : State, s.status.inited = true →
        exec .colr s = .next { s with W := quarterRounds columnQuadruples s.W }
          ∧ exec .diagr s = .next { s with W := quarterRounds diagonalQuadruples s.W }
          ∧ exec .perm s = .next { s with W := permF s.W s.cfg.rounds.toNat })
    ∧ quarterRounds columnQuadruples (Vector.replicate 16 0) = Vector.replicate 16 0
    ∧ quarterRounds diagonalQuadruples (Vector.replicate 16 0) = Vector.replicate 16 0

/-- R134, R135: SER serializes W into B and makes all of it unconsumed; ADV advances the counter of the layout by one, silently. -/
def Obligations.SerFillsTheBufferAndAdvAdvances : Prop :=
  (SpelledAs .ser 0x20 0 [] ∧ ReservedBitsRejected 0x20 0xFFFFFF 0 ∧ GatedByInited .ser)
    ∧ (SpelledAs .adv 0x21 0 [] ∧ ReservedBitsRejected 0x21 0xFFFFFF 0 ∧ GatedByInited .adv)
    ∧ (∀ s : State, s.status.inited = true →
        ∃ t, exec .ser s = .next t ∧ t.pos = 0
          ∧ (∀ (i : Fin 16) (j : Fin 4), t.B[4 * i.val + j.val]'(by omega) = s.W[i].extractLsb' (8 * j.val) 8)
          ∧ t = { s with B := t.B, pos := t.pos })
    ∧ (∀ s : State, s.status.inited = true →
        ∃ t, exec .adv s = .next t
          ∧ counterOf t = (counterOf s + 1) % counterModulus s.cfg.layout
          ∧ (∀ j : Index, j ≠ 12 → (s.cfg.layout = .djb → j ≠ 13) → t.S[j] = s.S[j])
          ∧ t = { s with S := t.S })

/-- R136, R133: GEN copies S into W, permutes it, feeds S forward, serializes it into B with POS = 0, and advances the counter of the
state afterwards. -/
def Obligations.GenGeneratesOneBlock : Prop :=
  SpelledAs .gen 0x22 0 [] ∧ ReservedBitsRejected 0x22 0xFFFFFF 0 ∧ GatedByInited .gen
    ∧ ∀ s : State, s.status.inited = true →
        ∃ t, exec .gen s = .next t
          ∧ (∀ i : Index, t.W[i] = (permF s.S s.cfg.rounds.toNat)[i] + s.S[i])
          ∧ (∀ (i : Fin 16) (j : Fin 4), t.B[4 * i.val + j.val]'(by omega) = t.W[i].extractLsb' (8 * j.val) 8)
          ∧ t.pos = 0 ∧ t.S = advF s.cfg.layout s.S
          ∧ t = { s with S := t.S, W := t.W, B := t.B, pos := t.pos }

/-- R154: FLUSH sets POS to 64 and changes nothing else. -/
def Obligations.FlushDiscardsTheBuffer : Prop :=
  SpelledAs .flush 0x23 0 [] ∧ ReservedBitsRejected 0x23 0xFFFFFF 0 ∧ GatedByInited .flush
    ∧ ∀ s : State, s.status.inited = true → exec .flush s = .next { s with pos := 64 }

/-- R153, R60: PRODUCE by its steps. Out of range it is rejected with no effect but the record; otherwise step 1 hands out buffered
bytes, and if they do not suffice the rest is a PRODUCE of its own; step 2 hands out a whole block past the buffer; step 3 generates
a block into the buffer and hands out what is asked of it. -/
def Obligations.ProduceRunsItsThreeSteps : Prop :=
  (∀ (m : Mode) (a l : Word), SpelledAs (.produce m a l) 0x24 (if m = .copy then 1 else 0) [a, l] ∧ GatedByInited (.produce m a l))
    ∧ ReservedBitsRejected 0x24 0xFFFFFE 2
    ∧ (∀ (s : State) (m : Mode) (a l : Word), s.status.inited = true → s.dmemSize.val < a.toNat + l.toNat →
        exec (.produce m a l) s = .next (s.record .range))
    ∧ (∀ (s : State) (m : Mode) (a l : Word), s.status.inited = true → a.toNat + l.toNat ≤ s.dmemSize.val →
        l.toNat ≤ 64 - s.pos.val →
        ∃ t, exec (.produce m a l) s = .next t ∧ t.pos.val = s.pos.val + l.toNat
          ∧ t.dmem = combineBytes m s.dmem a.toNat ((s.B.toList.drop s.pos.val).take l.toNat)
          ∧ t = { s with dmem := t.dmem, pos := t.pos })
    ∧ (∀ (s : State) (m : Mode) (a l n : Word), s.status.inited = true → a.toNat + l.toNat ≤ s.dmemSize.val →
        n.toNat = 64 - s.pos.val → n.toNat < l.toNat →
        ∃ t, exec (.produce m a n) s = .next t ∧ exec (.produce m a l) s = exec (.produce m (a + n) (l - n)) t)
    ∧ (∀ (s : State) (m : Mode) (a l : Word), s.status.inited = true → a.toNat + l.toNat ≤ s.dmemSize.val →
        s.pos = 64 → 64 ≤ l.toNat →
        exec (.produce m a l) s = exec (.produce m (a + 64) (l - 64))
          { s with
            dmem := combineBytes m s.dmem a.toNat (blockAt s (counterOf s)).toList
            W := outputWordsAt s (counterOf s)
            S := advF s.cfg.layout s.S })
    ∧ (∀ (s : State) (m : Mode) (a l : Word), s.status.inited = true → a.toNat + l.toNat ≤ s.dmemSize.val →
        s.pos = 64 → 0 < l.toNat → l.toNat < 64 →
        ∃ t, exec (.produce m a l) s = .next t ∧ t.pos.val = l.toNat
          ∧ t = { s with
              dmem := combineBytes m s.dmem a.toNat ((blockAt s (counterOf s)).toList.take l.toNat)
              B := blockAt s (counterOf s)
              W := outputWordsAt s (counterOf s)
              S := advF s.cfg.layout s.S
              pos := t.pos })

/-! ### Streaming -/

/-- R150: a run of combined bytes XORs each byte of DMEM with its keystream byte, or replaces it, and changes no other byte. -/
def Obligations.CombineJoinsByteByByte : Prop :=
  ∀ (m : Memory) (a : Nat) (ks : List Byte), Memory.wf m →
    (∀ i, ∀ h : i < ks.length,
        Memory.read (combineBytes .xor m a ks) (a + i) = Memory.read m (a + i) ^^^ ks[i]
          ∧ Memory.read (combineBytes .copy m a ks) (a + i) = ks[i])
      ∧ (∀ (mode : Mode) (b : Nat), b < a ∨ a + ks.length ≤ b →
          Memory.read (combineBytes mode m a ks) b = Memory.read m b)

/-- The frame of PRODUCE (R29, R51, R60): no byte of DMEM outside its range changes, nor does a constant, key or nonce word, CFG,
STATUS, RESPQ, the parser, DMEM_SIZE or the host's pending actions; rejected, it changes no byte at all. -/
def Obligations.ProduceChangesOnlyItsRange : Prop :=
  ∀ (s : State) (m : Mode) (a l : Word), Memory.wf s.dmem → s.status.inited = true →
    (a.toNat + l.toNat ≤ s.dmemSize.val →
      ∃ t, exec (.produce m a l) s = .next t
        ∧ (∀ b, b < a.toNat ∨ a.toNat + l.toNat ≤ b → Memory.read t.dmem b = Memory.read s.dmem b)
        ∧ (∀ j : Index, j ≠ 12 → (s.cfg.layout = .djb → j ≠ 13) → t.S[j] = s.S[j])
        ∧ t = { s with S := t.S, W := t.W, B := t.B, pos := t.pos, dmem := t.dmem })
      ∧ (¬ a.toNat + l.toNat ≤ s.dmemSize.val →
          ∃ t, exec (.produce m a l) s = .next t ∧ ∀ b, Memory.read t.dmem b = Memory.read s.dmem b)

/-- R155: from POS = 64 and counter c, PRODUCEs that are not rejected and hand out t bytes in all hand out bytes 0 to t - 1 of the
keystream in order, leave the counter at c + ceil(t / 64), and leave POS, B and W as the rule says. -/
def Obligations.ProducesFollowTheKeystream : Prop :=
  ∀ (s : State) (reqs : List ProduceRequest), s.status.inited = true → s.pos = 64 →
    (∀ r ∈ reqs, r.2.1.toNat + r.2.2.toNat ≤ s.dmemSize.val) →
    ∃ t, runCommands (reqs.map fun r => .produce r.1 r.2.1 r.2.2) s = .next t
      ∧ t.dmem = handedOut s 0 reqs s.dmem
      ∧ counterOf t = (counterOf s + (bytesAsked reqs + 63) / 64) % counterModulus s.cfg.layout
      ∧ (bytesAsked reqs % 64 = 0 → t.pos = 64)
      ∧ (bytesAsked reqs % 64 ≠ 0 →
          t.pos.val = bytesAsked reqs % 64 ∧ t.B = blockAt s (counterOf s + bytesAsked reqs / 64))
      ∧ (0 < bytesAsked reqs → t.W = outputWordsAt s (counterOf s + (bytesAsked reqs + 63) / 64 - 1))

/-- R156: chunking invariance. PRODUCEs of one mode at consecutive addresses leave DMEM, S, W and POS as one PRODUCE of the whole
length leaves them, and B too where POS < 64. -/
def Obligations.ChunkingDoesNotMatter : Prop :=
  ∀ (s : State) (mode : Mode) (a total : Word) (lens : List Word), s.status.inited = true →
    total.toNat = (lens.map BitVec.toNat).sum → a.toNat + total.toNat ≤ s.dmemSize.val →
    ∃ t u, runCommands (chunkCommands mode a lens) s = .next t ∧ exec (.produce mode a total) s = .next u
      ∧ t = { u with B := t.B } ∧ (t.pos.val < 64 → t.B = u.B)

/-- R157: PRODUCE xor applied again from the same stream position restores DMEM, and PRODUCE copy writes the bytes PRODUCE xor
writes over zero bytes, with the same effect on S, W, B and POS. -/
def Obligations.XorTwiceRestoresAndCopyIsXorOverZero : Prop :=
  (∀ (s : State) (a l : Word), Memory.wf s.dmem → s.status.inited = true → a.toNat + l.toNat ≤ s.dmemSize.val →
      ∃ t u, exec (.produce .xor a l) s = .next t
        ∧ exec (.produce .xor a l) { s with dmem := t.dmem } = .next u
        ∧ u.dmem = s.dmem ∧ u = { t with dmem := u.dmem })
    ∧ (∀ (s : State) (d : Memory) (a l : Word), Memory.wf s.dmem → Memory.wf d → s.status.inited = true →
        a.toNat + l.toNat ≤ s.dmemSize.val →
        (∀ b, a.toNat ≤ b → b < a.toNat + l.toNat → Memory.read d b = 0) →
        ∃ t u, exec (.produce .copy a l) s = .next t ∧ exec (.produce .xor a l) { s with dmem := d } = .next u
          ∧ (∀ b, a.toNat ≤ b → b < a.toNat + l.toNat → Memory.read t.dmem b = Memory.read u.dmem b)
          ∧ u = { t with dmem := u.dmem })

/-- R158: while POS = 64 the content of B has no effect on any later command result: two states that differ only there stay so
under every step. -/
def Obligations.StaleBufferIsNeverHandedOut : Prop :=
  ∀ s t : State, SameButStaleBuffer s t → RelatedOutcomes SameButStaleBuffer (step s) (step t)

/-- R159: a PRODUCE generates ceil((LEN - d) / 64) blocks, d the bytes it takes from the buffer, and the counter advances by
exactly that number. -/
def Obligations.ProduceAdvancesTheCounterByItsBlocks : Prop :=
  ∀ (s : State) (m : Mode) (a l : Word), s.status.inited = true → a.toNat + l.toNat ≤ s.dmemSize.val →
    ∃ t, exec (.produce m a l) s = .next t
      ∧ counterOf t
          = (counterOf s + (l.toNat - bufferedBytes s l.toNat + 63) / 64) % counterModulus s.cfg.layout

/-- R245: buffered bytes survive accessor writes: after WRS or WRCTR a PRODUCE that the buffer satisfies hands out the same bytes
as before the write. -/
def Obligations.BufferedBytesSurviveAccessorWrites : Prop :=
  ∀ (s t : State) (w : Instr) (m : Mode) (a l : Word), s.status.inited = true →
    ((∃ i v, w = .wrs i v) ∨ ∃ lo hi, w = .wrctr lo hi) → exec w s = .next t →
    a.toNat + l.toNat ≤ s.dmemSize.val → l.toNat ≤ 64 - s.pos.val →
    ∃ s' t', exec (.produce m a l) s = .next s' ∧ exec (.produce m a l) t = .next t'
      ∧ t'.dmem = s'.dmem ∧ t'.pos = s'.pos

/-- R176: SEEK, WRCTR and FLUSH, positions the stream at the start of block v whatever is buffered: the next PRODUCE copies the
first bytes of that block. -/
def Obligations.SeekPositionsAtTheStartOfABlock : Prop :=
  ∀ (s : State) (v : BitVec 64) (a l : Word), s.status.inited = true → v.toNat < counterModulus s.cfg.layout →
    a.toNat + l.toNat ≤ s.dmemSize.val → l.toNat ≤ 64 →
    ∃ t, runCommands (seekCommands v ++ fillCommands a l) s = .next t
      ∧ t.dmem = combineBytes .copy s.dmem a.toNat ((blockAt s v.toNat).toList.take l.toNat)

/-- R246: what W holds has no effect on later keystream: GEN and a PRODUCE give the same state but for W, and GEN the same W too. -/
def Obligations.WorkingArrayDoesNotReachTheKeystream : Prop :=
  ∀ (s : State) (X : Words), s.status.inited = true →
    exec .gen { s with W := X } = exec .gen s
      ∧ ∀ (m : Mode) (a l : Word),
          ∃ t u, exec (.produce m a l) { s with W := X } = .next t ∧ exec (.produce m a l) s = .next u
            ∧ t = { u with W := t.W }

/-- R196: INIT, SETKEY, SETNONCE and SETCTR construct the instance: constants, key words, and counter and nonce words by layout,
with POS = 64. The words are `LE32` of their bytes, byte `j` in bits `[8j+7:8j]` (R14, R53). -/
def Obligations.ConstructionSequenceSetsTheState : Prop :=
  (∀ b0 b1 b2 b3 : Byte,
      (le32 b0 b1 b2 b3).extractLsb' 0 8 = b0 ∧ (le32 b0 b1 b2 b3).extractLsb' 8 8 = b1
        ∧ (le32 b0 b1 b2 b3).extractLsb' 16 8 = b2 ∧ (le32 b0 b1 b2 b3).extractLsb' 24 8 = b3)
    ∧ (∀ (s : State) (r : BitVec 8) (k : Vector Byte 32) (n : Vector Byte 8) (v : BitVec 64), r.toNat ∈ [8, 12, 20] →
      ∃ t, runCommands (.init .djb r :: setKeyCommands k ++ setNonceDjbCommands n ++ setCtrCommands v) s = .next t
        ∧ t.S = #v[0x61707865, 0x3320646e, 0x79622d32, 0x6b206574,
            le32 k[0] k[1] k[2] k[3], le32 k[4] k[5] k[6] k[7], le32 k[8] k[9] k[10] k[11],
            le32 k[12] k[13] k[14] k[15], le32 k[16] k[17] k[18] k[19], le32 k[20] k[21] k[22] k[23],
            le32 k[24] k[25] k[26] k[27], le32 k[28] k[29] k[30] k[31],
            v.extractLsb' 0 32, v.extractLsb' 32 32, le32 n[0] n[1] n[2] n[3], le32 n[4] n[5] n[6] n[7]]
        ∧ t.pos = 64 ∧ t.cfg.layout = .djb ∧ t.cfg.rounds = r ∧ t.status.inited = true)
    ∧ (∀ (s : State) (r : BitVec 8) (k : Vector Byte 32) (n : Vector Byte 12) (v : BitVec 64), r.toNat ∈ [8, 12, 20] →
        v.toNat < 2 ^ 32 →
        ∃ t, runCommands (.init .ietf r :: setKeyCommands k ++ setNonceIetfCommands n ++ setCtrCommands v) s = .next t
          ∧ t.S = #v[0x61707865, 0x3320646e, 0x79622d32, 0x6b206574,
              le32 k[0] k[1] k[2] k[3], le32 k[4] k[5] k[6] k[7], le32 k[8] k[9] k[10] k[11],
              le32 k[12] k[13] k[14] k[15], le32 k[16] k[17] k[18] k[19], le32 k[20] k[21] k[22] k[23],
              le32 k[24] k[25] k[26] k[27], le32 k[28] k[29] k[30] k[31],
              v.extractLsb' 0 32, le32 n[0] n[1] n[2] n[3], le32 n[4] n[5] n[6] n[7], le32 n[8] n[9] n[10] n[11]]
          ∧ t.pos = 64 ∧ t.cfg.layout = .ietf ∧ t.cfg.rounds = r ∧ t.status.inited = true)

/-! ### Whole-machine rules -/

/-- Canonical DMEM is determined by its bytes: two canonical memories that read the same everywhere are equal data. The canonical
form is the model's (notes/assumptions/3.md). -/
def Obligations.CanonicalMemoriesAreEqualByTheirBytes : Prop :=
  ∀ m d : Memory, Memory.wf m → Memory.wf d → (∀ a, Memory.read m a = Memory.read d a) → m = d

/-- Every step that answers a next state keeps the invariant. -/
def Obligations.EveryStepKeepsTheInvariant : Prop :=
  ∀ s t : State, Inv s → step s = .next t → Inv t

/-- The reset state meets the invariant. -/
def Obligations.ResetMeetsTheInvariant : Prop :=
  Inv State.reset

/-- R192: INIT is the only command that writes CFG or sets INITED; no command clears INITED, and a step that changes CFG runs an
INIT or is a hardware reset. -/
def Obligations.OnlyInitWritesTheConfiguration : Prop :=
  (∀ (i : Instr) (s t : State), (∀ l r, i ≠ .init l r) → exec i s = .next t →
      t.cfg = s.cfg ∧ t.status.inited = s.status.inited)
    ∧ (∀ (l : Layout) (r : BitVec 8) (s t : State), exec (.init l r) s = .next t →
        s.status.inited = true → t.status.inited = true)
    ∧ (∀ s t : State, step s = .next t → t.cfg ≠ s.cfg →
        (∃ rest, s.input = .reset :: rest)
          ∨ ∃ l r rest, t.cfg = { layout := l, rounds := r } ∧ parseInput s.parse s.input = .command (.init l r) rest)

/-- The access table of R29 as a frame, for every command: S, W, B and POS, RESPQ and DMEM change only by the commands that
write them, and DMEM_SIZE, the parser and the host's pending actions by none. -/
def Obligations.CommandsWriteOnlyTheirState : Prop :=
  ∀ (i : Instr) (s t : State), exec i s = .next t →
    (i.opcode ∉ [.init, .clear, .wrs, .wrctr, .adv, .gen, .produce] → t.S = s.S)
      ∧ (i.opcode ∉ [.init, .clear, .ldw, .wrw, .qr, .colr, .diagr, .perm, .ff, .gen, .produce] → t.W = s.W)
      ∧ (i.opcode ∉ [.init, .clear, .ser, .gen, .produce] → t.B = s.B)
      ∧ (i.opcode ∉ [.init, .clear, .ser, .gen, .flush, .produce] → t.pos = s.pos)
      ∧ (i.opcode ∉ [.rds, .rdw, .rdctr, .rdstat] → t.respq = s.respq)
      ∧ (i.opcode ≠ .produce → t.dmem = s.dmem)
      ∧ t.dmemSize = s.dmemSize ∧ t.parse = s.parse ∧ t.input = s.input

/-- R39, R217: no unspecified reset value is observable. Two states that differ only in S, W, B, POS and CFG while INITED = 0 go
through the same run: the same stops, STATUS, RESPQ, DMEM and parser, and once INITED = 1 the same state. This also says that no
claim about what a host sees depends on the reset values the model chose (notes/assumptions/1.md). -/
def Obligations.UnspecifiedResetValuesAreNeverObserved : Prop :=
  ∀ (k : Nat) (s t : State), SameButHiddenReset s t →
    RelatedOutcomes SameButHiddenReset (core.run k s) (core.run k t)

/-! ### Byte conversions of the host -/

/-- R53, R180, R184: byte `4i + j` of `words_to_bytes` is bits `[8j+7:8j]` of word `i`; `bytes_to_words` is its inverse and takes
every length that is a multiple of 4 and no other; and a 32-bit or 64-bit value read from DMEM has the byte at the lowest address
in its lowest bits. -/
def Obligations.ByteConversionsAreLittleEndian : Prop :=
  (∀ ws : List Word, (wordsToBytes ws).length = 4 * ws.length)
    ∧ (∀ (ws : List Word) (i : Nat) (j : Fin 4) (h : i < ws.length),
        (wordsToBytes ws)[4 * i + j.val]? = some (ws[i].extractLsb' (8 * j.val) 8))
    ∧ (∀ ws : List Word, bytesToWords (wordsToBytes ws) = some ws)
    ∧ (∀ (bs : List Byte) (ws : List Word), bytesToWords bs = some ws → wordsToBytes ws = bs)
    ∧ (∀ bs : List Byte, bytesToWords bs = none ↔ bs.length % 4 ≠ 0)
    ∧ (∀ (m : Memory) (a : Nat) (j : Fin 4), (readU32 m a).extractLsb' (8 * j.val) 8 = Memory.read m (a + j.val))
    ∧ (∀ (m : Memory) (a : Nat) (j : Fin 8), (readU64 m a).extractLsb' (8 * j.val) 8 = Memory.read m (a + j.val))
end

