-- ==== Sys2Proof/Laws/Chacha.lean ====
section
/-! SUPPORT. What the functions of the permutation and the block core do to single words and bytes. -/

namespace Sys2Proof.Machine

/-- The rotation of R12 is the left rotation of bit vectors. -/
theorem rotl32_eq_rotateLeft (x : Word) (n : Nat) (h : n < 32) : rotl32 x n = x.rotateLeft n := by
  simp [rotl32, BitVec.rotateLeft, BitVec.rotateLeftAux, Nat.mod_eq_of_lt h]

/-- A word of a file after a write of one word. -/
theorem words_set (X : Words) (i j : Index) (v : Word) : (X.set i v)[j] = if j = i then v else X[j] := by
  simp [Fin.getElem_fin, Vector.getElem_set, Fin.ext_iff, eq_comm]

/-- A statement group of the quarter round changes its two words only. -/
theorem mixStep_of_ne (X : Words) (p q r j : Index) (n : Nat) (hp : j ≠ p) (hr : j ≠ r) :
    (mixStep X p q r n)[j] = X[j] := by
  simp only [mixStep]
  rw [words_set, if_neg hr, words_set, if_neg hr, words_set, if_neg hp]

/-- No round at all. -/
@[simp] theorem permF_zero (X : Words) : permF X 0 = X := rfl

/-- One more round. -/
theorem permF_succ (X : Words) (k : Nat) :
    permF X (k + 1) = if k % 2 = 0 then colrF (permF X k) else diagrF (permF X k) := rfl

/-- A word of the feed-forward. -/
@[simp] theorem feedForward_get (X S : Words) (i : Index) : (feedForward X S)[i] = X[i] + S[i] := by
  simp [feedForward, Fin.getElem_fin]

/-- A byte of the serialization. -/
@[simp] theorem serF_get (X : Words) (j : Fin 64) : (serF X)[j] = serByte X j := by
  simp [serF, Fin.getElem_fin]

/-- The IETF advance adds 1 to word 12 (R130). -/
theorem advIetf_low (S : Words) : (advIetf S)[12] = S[12] + 1 := by
  simp [advIetf]

/-- The DJB advance adds 1 to the low counter word (R131). -/
theorem advDjb_low (S : Words) : (advDjb S)[12] = S[12] + 1 := by
  unfold advDjb
  simp only
  split <;> simp

/-- The DJB advance carries into the high counter word when the low one wraps to 0 (R131). -/
theorem advDjb_high (S : Words) : (advDjb S)[13] = if S[12] + 1 = 0 then S[13] + 1 else S[13] := by
  unfold advDjb
  simp only [Vector.getElem_set_self]
  split <;> simp

/-- The IETF advance changes word 12 only. -/
theorem advIetf_of_ne (S : Words) (j : Index) (h : j ≠ 12) : (advIetf S)[j] = S[j] :=
  (words_set S 12 j _).trans (if_neg h)

/-- The DJB advance changes words 12 and 13 only. -/
theorem advDjb_of_ne (S : Words) (j : Index) (h : j ≠ 12) (h' : j ≠ 13) : (advDjb S)[j] = S[j] := by
  have hset : ∀ v : Word, (S.set 12 v)[j] = S[j] := fun v => (words_set S 12 j v).trans (if_neg h)
  unfold advDjb
  simp only
  split
  · exact (words_set _ 13 j _).trans ((if_neg h').trans (hset _))
  · exact hset _

/-- A counter advance changes no word but the counter words of the layout. -/
theorem advF_of_ne (l : Layout) (S : Words) (j : Index) (h : j ≠ 12) (h' : l = .djb → j ≠ 13) :
    (advF l S)[j] = S[j] := by
  cases l with
  | djb => exact advDjb_of_ne S j h (h' rfl)
  | ietf => exact advIetf_of_ne S j h

end Sys2Proof.Machine
end

