-- ==== Sys2Proof/Laws/PerInstr.lean ====
section
/-! SUPPORT. A family of statements made per command: the header a command encodes to is the one the opcode map
selects it by, and as many operand words follow as the header asks for (30_encoding.md R73, R81). -/

namespace Sys2Proof.Laws.HeaderSelects

/-- The reserved bits of ARGS are 0, and the operand words are as many as the header asks for. -/
def Statement (i : Instr) : Prop :=
  opField (encodeHeader i) = i.opcode.number
    ∧ argsField (encodeHeader i) &&& i.opcode.format.reservedMask = 0
    ∧ (encodeOperands i).length = operandCountOf (encodeHeader i)

theorem opField_append (n : BitVec 8) (args : BitVec 24) : opField (n ++ args) = n :=
  BitVec.extractLsb'_append_eq_left

theorem argsField_append (n : BitVec 8) (args : BitVec 24) : argsField (n ++ args) = args :=
  BitVec.extractLsb'_append_eq_right

theorem ofNumber_number (op : Opcode) : Opcode.ofNumber op.number = some op := by
  cases op <;> decide

/-- The three parts from what each command has of its own: its operand count and its ARGS. -/
theorem statement_of (i : Instr) (hn : (encodeOperands i).length = i.opcode.operandCount)
    (ha : encodeArgs i &&& i.opcode.format.reservedMask = 0) : Statement i := by
  refine ⟨opField_append _ _, ?_, ?_⟩
  · rw [encodeHeader, argsField_append]; exact ha
  · rw [hn, operandCountOf, encodeHeader, opField_append, ofNumber_number]

theorem argsFI_reserved (i : Index) : argsFI i &&& Format.reservedMask .fi = 0 := by
  revert i; decide

theorem argsFM_reserved (m : Mode) : argsFM m &&& Format.reservedMask .fm = 0 := by
  cases m <;> decide

theorem argsFC_reserved (l : Layout) (r : BitVec 8) : argsFC l r &&& Format.reservedMask .fc = 0 := by
  cases l <;> (revert r; decide)

theorem argsFQ_reserved (a b c d : Index) : argsFQ a b c d &&& Format.reservedMask .fq = 0 := by
  have low : ∀ x : BitVec 16, (0#8 ++ x : BitVec 24) &&& (0xFF#8 ++ 0#16) = 0#8 ++ 0#16 := fun x => by
    rw [BitVec.and_append]; simp
  exact low _

theorem nop : Statement .nop :=
  statement_of _ rfl (by decide)

theorem init (layout : Layout) (rounds : BitVec 8) : Statement (.init layout rounds) :=
  statement_of _ rfl (argsFC_reserved _ _)

theorem clear : Statement .clear :=
  statement_of _ rfl (by decide)

theorem rdstat : Statement .rdstat :=
  statement_of _ rfl (by decide)

theorem clrerr : Statement .clrerr :=
  statement_of _ rfl (by decide)

theorem wrs (i : Index) (value : Word) : Statement (.wrs i value) :=
  statement_of _ rfl (argsFI_reserved _)

theorem rds (i : Index) : Statement (.rds i) :=
  statement_of _ rfl (argsFI_reserved _)

theorem wrctr (lo hi : Word) : Statement (.wrctr lo hi) :=
  statement_of _ rfl BitVec.zero_and

theorem rdctr : Statement .rdctr :=
  statement_of _ rfl (by decide)

theorem ldw : Statement .ldw :=
  statement_of _ rfl (by decide)

theorem wrw (i : Index) (value : Word) : Statement (.wrw i value) :=
  statement_of _ rfl (argsFI_reserved _)

theorem rdw (i : Index) : Statement (.rdw i) :=
  statement_of _ rfl (argsFI_reserved _)

theorem qr (a b c d : Index) : Statement (.qr a b c d) :=
  statement_of _ rfl (argsFQ_reserved _ _ _ _)

theorem colr : Statement .colr :=
  statement_of _ rfl (by decide)

theorem diagr : Statement .diagr :=
  statement_of _ rfl (by decide)

theorem perm : Statement .perm :=
  statement_of _ rfl (by decide)

theorem ff : Statement .ff :=
  statement_of _ rfl (by decide)

theorem ser : Statement .ser :=
  statement_of _ rfl (by decide)

theorem adv : Statement .adv :=
  statement_of _ rfl (by decide)

theorem gen : Statement .gen :=
  statement_of _ rfl (by decide)

theorem flush : Statement .flush :=
  statement_of _ rfl (by decide)

theorem produce (mode : Mode) (addr len : Word) : Statement (.produce mode addr len) :=
  statement_of _ rfl (argsFM_reserved _)

/-- The statement holds of every command. -/
theorem of_instr (i : Instr) : Statement i :=
  match i with
  | .nop => nop
  | .init layout rounds => init layout rounds
  | .clear => clear
  | .rdstat => rdstat
  | .clrerr => clrerr
  | .wrs i value => wrs i value
  | .rds i => rds i
  | .wrctr lo hi => wrctr lo hi
  | .rdctr => rdctr
  | .ldw => ldw
  | .wrw i value => wrw i value
  | .rdw i => rdw i
  | .qr a b c d => qr a b c d
  | .colr => colr
  | .diagr => diagr
  | .perm => perm
  | .ff => ff
  | .ser => ser
  | .adv => adv
  | .gen => gen
  | .flush => flush
  | .produce mode addr len => produce mode addr len

end Sys2Proof.Laws.HeaderSelects
end

