-- ==== Sys2Proof/Laws/Decode.lean ====
section
/-! SUPPORT. When a list of words is incomplete and what the parser makes of words one by one. -/

namespace Sys2Proof

/-- The number of two fields side by side. -/
theorem toNat_append_add {n m : Nat} (x : BitVec n) (y : BitVec m) : (x ++ y).toNat = x.toNat * 2 ^ m + y.toNat := by
  rw [BitVec.toNat_append, ← Nat.shiftLeft_add_eq_or_of_lt y.isLt, Nat.shiftLeft_eq]

/-- A whole command is never incomplete. -/
theorem decodeWhole_ne_incomplete (h : Word) (ops rest : List Word) : decodeWhole h ops rest ≠ .incomplete := by
  unfold decodeWhole
  split
  · simp
  · split <;> simp

theorem decode_cons (h : Word) (ws : List Word) :
    decode (h :: ws) = if ws.length < operandCountOf h then .incomplete
      else decodeWhole h (ws.take (operandCountOf h)) (ws.drop (operandCountOf h)) := rfl

/-- A list of words is incomplete exactly when it is empty or lacks operand words of its header. -/
theorem decode_cons_incomplete (h : Word) (ws : List Word) :
    decode (h :: ws) = .incomplete ↔ ws.length < operandCountOf h := by
  rw [decode_cons]
  split
  · simp [*]
  · simp [*, decodeWhole_ne_incomplete]

/-- A header with all its operand words, whatever follows. -/
theorem decode_whole (h : Word) (ops rest : List Word) (hl : ops.length = operandCountOf h) :
    decode (h :: (ops ++ rest)) = decodeWhole h ops rest := by
  simp [decode_cons, ← hl]

/-- The words after a whole command stay as they are. -/
theorem decodeWhole_rest (h : Word) (ops rest : List Word) :
    (∃ i, decodeWhole h ops rest = .command i rest) ∨ ∃ c, decodeWhole h ops rest = .rejected c rest := by
  unfold decodeWhole
  split
  · exact .inr ⟨_, rfl⟩
  · split
    · exact .inl ⟨_, rfl⟩
    · exact .inr ⟨_, rfl⟩

/-- The words of a decoded command are a header, its operand words, and the rest. -/
theorem decode_command_words (ws : List Word) (i : Instr) (rest : List Word) (hd : decode ws = .command i rest) :
    ∃ h ops, ws = h :: (ops ++ rest) ∧ ops.length = operandCountOf h ∧ decodeWhole h ops rest = .command i rest := by
  cases ws with
  | nil => simp [decode] at hd
  | cons h ws =>
    rw [decode_cons] at hd
    split at hd
    · cases hd
    · rename_i hn
      have hr : ws.drop (operandCountOf h) = rest := by
        rcases decodeWhole_rest h (ws.take (operandCountOf h)) (ws.drop (operandCountOf h)) with ⟨j, hj⟩ | ⟨c, hc⟩
        · rw [hj] at hd; injection hd
        · rw [hc] at hd; cases hd
      rw [hr] at hd
      exact ⟨h, ws.take (operandCountOf h), by rw [← hr, List.take_append_drop], by simp; omega, hd⟩

/-- The opcode of a number is the one that has it. -/
theorem ofNumber_eq_some (n : BitVec 8) (op : Opcode) (h : Opcode.ofNumber n = some op) : op.number = n := by
  have := List.find?_some h
  simpa using this

end Sys2Proof

namespace Sys2Proof.Machine

@[simp] theorem Parse.taken_header : Parse.taken .header = [] := rfl
@[simp] theorem Parse.taken_operands (h : Word) (got : List Word) : Parse.taken (.operands h got) = h :: got := rfl
@[simp] theorem parseOf_taken (p : Parse) : parseOf p.taken = p := by cases p <;> rfl
@[simp] theorem taken_parseOf (ws : List Word) : (parseOf ws).taken = ws := by cases ws <;> rfl

/-- Words that complete nothing are taken, one by one. -/
theorem parseInput_incomplete (p : Parse) (ws : List Word) (rest : List Input)
    (h : ∀ k, 0 < k → k ≤ ws.length → decode (p.taken ++ ws.take k) = .incomplete) :
    parseInput p (ws.map .word ++ rest) = parseInput (parseOf (p.taken ++ ws)) rest := by
  induction ws generalizing p with
  | nil => simp
  | cons w ws ih =>
    have h1 := h 1 (by simp) (by simp)
    simp only [List.take_succ_cons, List.take_zero] at h1
    rw [List.map_cons, List.cons_append, parseInput, h1]
    simp only
    rw [ih]
    · simp
    · intro k hk hl
      have := h (k + 1) (by simp) (by simpa using hl)
      simpa using this

/-- A list of words that is incomplete is so with fewer words. -/
theorem decode_take_incomplete (ws : List Word) (h : decode ws = .incomplete) (k : Nat) :
    decode (ws.take k) = .incomplete := by
  cases ws with
  | nil => simpa using h
  | cons w ws =>
    cases k with
    | zero => rfl
    | succ k =>
      rw [decode_cons_incomplete] at h
      rw [List.take_succ_cons, decode_cons_incomplete, List.length_take]
      omega

/-- A prefix of a whole command that lacks its last word is incomplete. -/
theorem decode_dropLast_incomplete (h : Word) (ops : List Word) (hl : ops.length = operandCountOf h) :
    decode (h :: ops).dropLast = .incomplete := by
  cases ops using List.reverseRecOn with
  | nil => rfl
  | append_singleton ops o =>
    rw [← List.cons_append, List.dropLast_concat, decode_cons_incomplete, ← hl]
    simp

/-- The parser finds a whole command whose first words it has taken already. -/
theorem parseInput_whole (p : Parse) (h : Word) (ops ws : List Word) (rest : List Input) (hw : ws ≠ [])
    (hl : ops.length = operandCountOf h) (hp : p.taken ++ ws = h :: ops) :
    parseInput p (ws.map .word ++ rest) = match decodeWhole h ops [] with
      | .command i _ => .command i rest
      | .rejected c _ => .rejected c rest
      | .incomplete => .waiting p rest := by
  obtain ⟨vs, w, rfl⟩ : ∃ vs w, ws = vs ++ [w] := ⟨_, _, (List.dropLast_append_getLast hw).symm⟩
  have hd : p.taken ++ vs = (h :: ops).dropLast := by rw [← hp, ← List.append_assoc, List.dropLast_concat]
  rw [List.map_append, List.append_assoc, parseInput_incomplete]
  · have hlast : decode (h :: ops) = decodeWhole h ops [] := by simpa using decode_whole h ops [] hl
    rw [List.map_singleton, List.singleton_append, parseInput, taken_parseOf, List.append_assoc, hp, hlast]
    rcases decodeWhole_rest h ops [] with ⟨i, hi⟩ | ⟨c, hc⟩
    · rw [hi]
    · rw [hc]
  · intro k _ hk
    have := decode_take_incomplete _ (decode_dropLast_incomplete h ops hl) (p.taken.length + k)
    rwa [← hd, List.take_length_add_append] at this

end Sys2Proof.Machine
end

