-- ==== Sys2Proof/Laws/HostMacros.lean ====
section
/-! SUPPORT. The byte conversions of the host, group of four bytes by group. -/

namespace Sys2Proof.Machine

@[simp] theorem bytesToWords_nil : bytesToWords [] = some [] := rfl

/-- Four bytes make one word, and the rest follows. -/
@[simp] theorem bytesToWords_cons (b0 b1 b2 b3 : Byte) (bs : List Byte) :
    bytesToWords (b0 :: b1 :: b2 :: b3 :: bs) = (bytesToWords bs).map (le32 b0 b1 b2 b3 :: ·) := rfl

@[simp] theorem wordsToBytes_nil : wordsToBytes [] = [] := rfl

/-- One word makes four bytes, and the rest follows. -/
@[simp] theorem wordsToBytes_cons (w : Word) (ws : List Word) : wordsToBytes (w :: ws) = bytesLE w ++ wordsToBytes ws := rfl

end Sys2Proof.Machine
end

