-- ==== Sys2Proof/Laws/State.lean ====
section
/-! SUPPORT. One lemma for each field of the state and each named update of it, so that no later proof unfolds
an update. -/

namespace Sys2Proof.Machine

/-! ### Registers -/

@[simp] theorem State.writeS_S (s : State) (i : Index) (v : Word) : (s.writeS i v).S = s.S.set i v := rfl
@[simp] theorem State.writeS_W (s : State) (i : Index) (v : Word) : (s.writeS i v).W = s.W := rfl
@[simp] theorem State.writeS_B (s : State) (i : Index) (v : Word) : (s.writeS i v).B = s.B := rfl
@[simp] theorem State.writeS_pos (s : State) (i : Index) (v : Word) : (s.writeS i v).pos = s.pos := rfl
@[simp] theorem State.writeS_cfg (s : State) (i : Index) (v : Word) : (s.writeS i v).cfg = s.cfg := rfl
@[simp] theorem State.writeS_status (s : State) (i : Index) (v : Word) : (s.writeS i v).status = s.status := rfl
@[simp] theorem State.writeS_respq (s : State) (i : Index) (v : Word) : (s.writeS i v).respq = s.respq := rfl
@[simp] theorem State.writeS_parse (s : State) (i : Index) (v : Word) : (s.writeS i v).parse = s.parse := rfl
@[simp] theorem State.writeS_dmem (s : State) (i : Index) (v : Word) : (s.writeS i v).dmem = s.dmem := rfl
@[simp] theorem State.writeS_dmemSize (s : State) (i : Index) (v : Word) : (s.writeS i v).dmemSize = s.dmemSize := rfl
@[simp] theorem State.writeS_input (s : State) (i : Index) (v : Word) : (s.writeS i v).input = s.input := rfl
@[simp] theorem State.writeW_S (s : State) (i : Index) (v : Word) : (s.writeW i v).S = s.S := rfl
@[simp] theorem State.writeW_W (s : State) (i : Index) (v : Word) : (s.writeW i v).W = s.W.set i v := rfl
@[simp] theorem State.writeW_B (s : State) (i : Index) (v : Word) : (s.writeW i v).B = s.B := rfl
@[simp] theorem State.writeW_pos (s : State) (i : Index) (v : Word) : (s.writeW i v).pos = s.pos := rfl
@[simp] theorem State.writeW_cfg (s : State) (i : Index) (v : Word) : (s.writeW i v).cfg = s.cfg := rfl
@[simp] theorem State.writeW_status (s : State) (i : Index) (v : Word) : (s.writeW i v).status = s.status := rfl
@[simp] theorem State.writeW_respq (s : State) (i : Index) (v : Word) : (s.writeW i v).respq = s.respq := rfl
@[simp] theorem State.writeW_parse (s : State) (i : Index) (v : Word) : (s.writeW i v).parse = s.parse := rfl
@[simp] theorem State.writeW_dmem (s : State) (i : Index) (v : Word) : (s.writeW i v).dmem = s.dmem := rfl
@[simp] theorem State.writeW_dmemSize (s : State) (i : Index) (v : Word) : (s.writeW i v).dmemSize = s.dmemSize := rfl
@[simp] theorem State.writeW_input (s : State) (i : Index) (v : Word) : (s.writeW i v).input = s.input := rfl
@[simp] theorem State.setW_S (s : State) (X : Words) : (s.setW X).S = s.S := rfl
@[simp] theorem State.setW_W (s : State) (X : Words) : (s.setW X).W = X := rfl
@[simp] theorem State.setW_B (s : State) (X : Words) : (s.setW X).B = s.B := rfl
@[simp] theorem State.setW_pos (s : State) (X : Words) : (s.setW X).pos = s.pos := rfl
@[simp] theorem State.setW_cfg (s : State) (X : Words) : (s.setW X).cfg = s.cfg := rfl
@[simp] theorem State.setW_status (s : State) (X : Words) : (s.setW X).status = s.status := rfl
@[simp] theorem State.setW_respq (s : State) (X : Words) : (s.setW X).respq = s.respq := rfl
@[simp] theorem State.setW_parse (s : State) (X : Words) : (s.setW X).parse = s.parse := rfl
@[simp] theorem State.setW_dmem (s : State) (X : Words) : (s.setW X).dmem = s.dmem := rfl
@[simp] theorem State.setW_dmemSize (s : State) (X : Words) : (s.setW X).dmemSize = s.dmemSize := rfl
@[simp] theorem State.setW_input (s : State) (X : Words) : (s.setW X).input = s.input := rfl
@[simp] theorem State.setBuffer_S (s : State) (B : Block) (p : Fin 65) : (s.setBuffer B p).S = s.S := rfl
@[simp] theorem State.setBuffer_W (s : State) (B : Block) (p : Fin 65) : (s.setBuffer B p).W = s.W := rfl
@[simp] theorem State.setBuffer_B (s : State) (B : Block) (p : Fin 65) : (s.setBuffer B p).B = B := rfl
@[simp] theorem State.setBuffer_pos (s : State) (B : Block) (p : Fin 65) : (s.setBuffer B p).pos = p := rfl
@[simp] theorem State.setBuffer_cfg (s : State) (B : Block) (p : Fin 65) : (s.setBuffer B p).cfg = s.cfg := rfl
@[simp] theorem State.setBuffer_status (s : State) (B : Block) (p : Fin 65) : (s.setBuffer B p).status = s.status := rfl
@[simp] theorem State.setBuffer_respq (s : State) (B : Block) (p : Fin 65) : (s.setBuffer B p).respq = s.respq := rfl
@[simp] theorem State.setBuffer_parse (s : State) (B : Block) (p : Fin 65) : (s.setBuffer B p).parse = s.parse := rfl
@[simp] theorem State.setBuffer_dmem (s : State) (B : Block) (p : Fin 65) : (s.setBuffer B p).dmem = s.dmem := rfl
@[simp] theorem State.setBuffer_dmemSize (s : State) (B : Block) (p : Fin 65) : (s.setBuffer B p).dmemSize = s.dmemSize := rfl
@[simp] theorem State.setBuffer_input (s : State) (B : Block) (p : Fin 65) : (s.setBuffer B p).input = s.input := rfl
@[simp] theorem State.respond_S (s : State) (v : Word) : (s.respond v).S = s.S := rfl
@[simp] theorem State.respond_W (s : State) (v : Word) : (s.respond v).W = s.W := rfl
@[simp] theorem State.respond_B (s : State) (v : Word) : (s.respond v).B = s.B := rfl
@[simp] theorem State.respond_pos (s : State) (v : Word) : (s.respond v).pos = s.pos := rfl
@[simp] theorem State.respond_cfg (s : State) (v : Word) : (s.respond v).cfg = s.cfg := rfl
@[simp] theorem State.respond_status (s : State) (v : Word) : (s.respond v).status = s.status := rfl
@[simp] theorem State.respond_respq (s : State) (v : Word) : (s.respond v).respq = s.respq ++ [v] := rfl
@[simp] theorem State.respond_parse (s : State) (v : Word) : (s.respond v).parse = s.parse := rfl
@[simp] theorem State.respond_dmem (s : State) (v : Word) : (s.respond v).dmem = s.dmem := rfl
@[simp] theorem State.respond_dmemSize (s : State) (v : Word) : (s.respond v).dmemSize = s.dmemSize := rfl
@[simp] theorem State.respond_input (s : State) (v : Word) : (s.respond v).input = s.input := rfl

/-! ### Whole files -/

@[simp] theorem State.setDmem_S (s : State) (m : Memory) : (s.setDmem m).S = s.S := rfl
@[simp] theorem State.setDmem_W (s : State) (m : Memory) : (s.setDmem m).W = s.W := rfl
@[simp] theorem State.setDmem_B (s : State) (m : Memory) : (s.setDmem m).B = s.B := rfl
@[simp] theorem State.setDmem_pos (s : State) (m : Memory) : (s.setDmem m).pos = s.pos := rfl
@[simp] theorem State.setDmem_cfg (s : State) (m : Memory) : (s.setDmem m).cfg = s.cfg := rfl
@[simp] theorem State.setDmem_status (s : State) (m : Memory) : (s.setDmem m).status = s.status := rfl
@[simp] theorem State.setDmem_respq (s : State) (m : Memory) : (s.setDmem m).respq = s.respq := rfl
@[simp] theorem State.setDmem_parse (s : State) (m : Memory) : (s.setDmem m).parse = s.parse := rfl
@[simp] theorem State.setDmem_dmem (s : State) (m : Memory) : (s.setDmem m).dmem = m := rfl
@[simp] theorem State.setDmem_dmemSize (s : State) (m : Memory) : (s.setDmem m).dmemSize = s.dmemSize := rfl
@[simp] theorem State.setDmem_input (s : State) (m : Memory) : (s.setDmem m).input = s.input := rfl
@[simp] theorem State.setS_S (s : State) (X : Words) : (s.setS X).S = X := rfl
@[simp] theorem State.setS_W (s : State) (X : Words) : (s.setS X).W = s.W := rfl
@[simp] theorem State.setS_B (s : State) (X : Words) : (s.setS X).B = s.B := rfl
@[simp] theorem State.setS_pos (s : State) (X : Words) : (s.setS X).pos = s.pos := rfl
@[simp] theorem State.setS_cfg (s : State) (X : Words) : (s.setS X).cfg = s.cfg := rfl
@[simp] theorem State.setS_status (s : State) (X : Words) : (s.setS X).status = s.status := rfl
@[simp] theorem State.setS_respq (s : State) (X : Words) : (s.setS X).respq = s.respq := rfl
@[simp] theorem State.setS_parse (s : State) (X : Words) : (s.setS X).parse = s.parse := rfl
@[simp] theorem State.setS_dmem (s : State) (X : Words) : (s.setS X).dmem = s.dmem := rfl
@[simp] theorem State.setS_dmemSize (s : State) (X : Words) : (s.setS X).dmemSize = s.dmemSize := rfl
@[simp] theorem State.setS_input (s : State) (X : Words) : (s.setS X).input = s.input := rfl

/-! ### Rejection -/

@[simp] theorem State.record_S (s : State) (c : RejectCode) : (s.record c).S = s.S := rfl
@[simp] theorem State.record_W (s : State) (c : RejectCode) : (s.record c).W = s.W := rfl
@[simp] theorem State.record_B (s : State) (c : RejectCode) : (s.record c).B = s.B := rfl
@[simp] theorem State.record_pos (s : State) (c : RejectCode) : (s.record c).pos = s.pos := rfl
@[simp] theorem State.record_cfg (s : State) (c : RejectCode) : (s.record c).cfg = s.cfg := rfl
@[simp] theorem State.record_respq (s : State) (c : RejectCode) : (s.record c).respq = s.respq := rfl
@[simp] theorem State.record_parse (s : State) (c : RejectCode) : (s.record c).parse = s.parse := rfl
@[simp] theorem State.record_dmem (s : State) (c : RejectCode) : (s.record c).dmem = s.dmem := rfl
@[simp] theorem State.record_dmemSize (s : State) (c : RejectCode) : (s.record c).dmemSize = s.dmemSize := rfl
@[simp] theorem State.record_input (s : State) (c : RejectCode) : (s.record c).input = s.input := rfl
@[simp] theorem State.record_inited (s : State) (c : RejectCode) : (s.record c).status.inited = s.status.inited := rfl
@[simp] theorem State.record_err (s : State) (c : RejectCode) : (s.record c).status.err = true := rfl
@[simp] theorem State.record_errcode (s : State) (c : RejectCode) :
    (s.record c).status.errcode = if s.status.err then s.status.errcode else codeNumber c := rfl

/-! ### Clearing the record -/

@[simp] theorem State.clearRecord_S (s : State) : s.clearRecord.S = s.S := rfl
@[simp] theorem State.clearRecord_W (s : State) : s.clearRecord.W = s.W := rfl
@[simp] theorem State.clearRecord_B (s : State) : s.clearRecord.B = s.B := rfl
@[simp] theorem State.clearRecord_pos (s : State) : s.clearRecord.pos = s.pos := rfl
@[simp] theorem State.clearRecord_cfg (s : State) : s.clearRecord.cfg = s.cfg := rfl
@[simp] theorem State.clearRecord_respq (s : State) : s.clearRecord.respq = s.respq := rfl
@[simp] theorem State.clearRecord_parse (s : State) : s.clearRecord.parse = s.parse := rfl
@[simp] theorem State.clearRecord_dmem (s : State) : s.clearRecord.dmem = s.dmem := rfl
@[simp] theorem State.clearRecord_dmemSize (s : State) : s.clearRecord.dmemSize = s.dmemSize := rfl
@[simp] theorem State.clearRecord_input (s : State) : s.clearRecord.input = s.input := rfl
@[simp] theorem State.clearRecord_inited (s : State) : s.clearRecord.status.inited = s.status.inited := rfl
@[simp] theorem State.clearRecord_err (s : State) : s.clearRecord.status.err = false := rfl
@[simp] theorem State.clearRecord_errcode (s : State) : s.clearRecord.status.errcode = 0 := rfl

/-! ### Construction -/

@[simp] theorem construct_S (l : Layout) (r : BitVec 8) (s : State) :
    (construct l r s).S = initialWords := rfl
@[simp] theorem construct_W (l : Layout) (r : BitVec 8) (s : State) :
    (construct l r s).W = Vector.replicate 16 0 := rfl
@[simp] theorem construct_B (l : Layout) (r : BitVec 8) (s : State) :
    (construct l r s).B = Vector.replicate 64 0 := rfl
@[simp] theorem construct_pos (l : Layout) (r : BitVec 8) (s : State) :
    (construct l r s).pos = 64 := rfl
@[simp] theorem construct_cfg (l : Layout) (r : BitVec 8) (s : State) :
    (construct l r s).cfg = { layout := l, rounds := r } := rfl
@[simp] theorem construct_status (l : Layout) (r : BitVec 8) (s : State) :
    (construct l r s).status = { s.status with inited := true } := rfl
@[simp] theorem construct_respq (l : Layout) (r : BitVec 8) (s : State) :
    (construct l r s).respq = s.respq := rfl
@[simp] theorem construct_parse (l : Layout) (r : BitVec 8) (s : State) :
    (construct l r s).parse = s.parse := rfl
@[simp] theorem construct_dmem (l : Layout) (r : BitVec 8) (s : State) :
    (construct l r s).dmem = s.dmem := rfl
@[simp] theorem construct_dmemSize (l : Layout) (r : BitVec 8) (s : State) :
    (construct l r s).dmemSize = s.dmemSize := rfl
@[simp] theorem construct_input (l : Layout) (r : BitVec 8) (s : State) :
    (construct l r s).input = s.input := rfl

/-! ### Reset and supply -/

@[simp] theorem hardReset_S (s : State) : (hardReset s).S = State.reset.S := rfl
@[simp] theorem hardReset_W (s : State) : (hardReset s).W = State.reset.W := rfl
@[simp] theorem hardReset_B (s : State) : (hardReset s).B = State.reset.B := rfl
@[simp] theorem hardReset_pos (s : State) : (hardReset s).pos = State.reset.pos := rfl
@[simp] theorem hardReset_cfg (s : State) : (hardReset s).cfg = State.reset.cfg := rfl
@[simp] theorem hardReset_status (s : State) : (hardReset s).status = State.reset.status := rfl
@[simp] theorem hardReset_respq (s : State) : (hardReset s).respq = State.reset.respq := rfl
@[simp] theorem hardReset_parse (s : State) : (hardReset s).parse = State.reset.parse := rfl
@[simp] theorem hardReset_dmem (s : State) : (hardReset s).dmem = s.dmem := rfl
@[simp] theorem hardReset_dmemSize (s : State) : (hardReset s).dmemSize = s.dmemSize := rfl
@[simp] theorem hardReset_input (s : State) : (hardReset s).input = s.input := rfl
@[simp] theorem State.supply_S (s : State) (xs : List Input) : (s.supply xs).S = s.S := rfl
@[simp] theorem State.supply_W (s : State) (xs : List Input) : (s.supply xs).W = s.W := rfl
@[simp] theorem State.supply_B (s : State) (xs : List Input) : (s.supply xs).B = s.B := rfl
@[simp] theorem State.supply_pos (s : State) (xs : List Input) : (s.supply xs).pos = s.pos := rfl
@[simp] theorem State.supply_cfg (s : State) (xs : List Input) : (s.supply xs).cfg = s.cfg := rfl
@[simp] theorem State.supply_status (s : State) (xs : List Input) : (s.supply xs).status = s.status := rfl
@[simp] theorem State.supply_respq (s : State) (xs : List Input) : (s.supply xs).respq = s.respq := rfl
@[simp] theorem State.supply_parse (s : State) (xs : List Input) : (s.supply xs).parse = s.parse := rfl
@[simp] theorem State.supply_dmem (s : State) (xs : List Input) : (s.supply xs).dmem = s.dmem := rfl
@[simp] theorem State.supply_dmemSize (s : State) (xs : List Input) : (s.supply xs).dmemSize = s.dmemSize := rfl
@[simp] theorem State.supply_input (s : State) (xs : List Input) : (s.supply xs).input = s.input ++ xs := rfl

/-! ### Block generation -/

@[simp] theorem blockFn_bytes (s : State) : (blockFn s).1 = serF (blockWords s.S s.cfg.rounds.toNat) := rfl
@[simp] theorem blockFn_S (s : State) : (blockFn s).2.S = advF s.cfg.layout s.S := rfl
@[simp] theorem blockFn_W (s : State) : (blockFn s).2.W = blockWords s.S s.cfg.rounds.toNat := rfl
@[simp] theorem blockFn_B (s : State) : (blockFn s).2.B = s.B := rfl
@[simp] theorem blockFn_pos (s : State) : (blockFn s).2.pos = s.pos := rfl
@[simp] theorem blockFn_cfg (s : State) : (blockFn s).2.cfg = s.cfg := rfl
@[simp] theorem blockFn_status (s : State) : (blockFn s).2.status = s.status := rfl
@[simp] theorem blockFn_respq (s : State) : (blockFn s).2.respq = s.respq := rfl
@[simp] theorem blockFn_parse (s : State) : (blockFn s).2.parse = s.parse := rfl
@[simp] theorem blockFn_dmem (s : State) : (blockFn s).2.dmem = s.dmem := rfl
@[simp] theorem blockFn_dmemSize (s : State) : (blockFn s).2.dmemSize = s.dmemSize := rfl
@[simp] theorem blockFn_input (s : State) : (blockFn s).2.input = s.input := rfl
@[simp] theorem refill_S (s : State) (p : Fin 65) : (refill s p).S = advF s.cfg.layout s.S := rfl
@[simp] theorem refill_W (s : State) (p : Fin 65) : (refill s p).W = blockWords s.S s.cfg.rounds.toNat := rfl
@[simp] theorem refill_B (s : State) (p : Fin 65) : (refill s p).B = serF (blockWords s.S s.cfg.rounds.toNat) := rfl
@[simp] theorem refill_pos (s : State) (p : Fin 65) : (refill s p).pos = p := rfl
@[simp] theorem refill_cfg (s : State) (p : Fin 65) : (refill s p).cfg = s.cfg := rfl
@[simp] theorem refill_status (s : State) (p : Fin 65) : (refill s p).status = s.status := rfl
@[simp] theorem refill_respq (s : State) (p : Fin 65) : (refill s p).respq = s.respq := rfl
@[simp] theorem refill_parse (s : State) (p : Fin 65) : (refill s p).parse = s.parse := rfl
@[simp] theorem refill_dmem (s : State) (p : Fin 65) : (refill s p).dmem = s.dmem := rfl
@[simp] theorem refill_dmemSize (s : State) (p : Fin 65) : (refill s p).dmemSize = s.dmemSize := rfl
@[simp] theorem refill_input (s : State) (p : Fin 65) : (refill s p).input = s.input := rfl

end Sys2Proof.Machine
end

