-- ==== Sys2Proof/Laws/Ops.lean ====
section
/-! SUPPORT. What the shared operations of the commands and of the host's actions can answer. -/

namespace Sys2Proof.Machine

/-- An initialised engine goes to the state given. -/
@[simp] theorem whenInited_of_inited (s t : State) (h : s.status.inited = true) : whenInited s t = .next t := by
  simp [whenInited, h]

/-- An engine that is not initialised records NOT_INIT. -/
@[simp] theorem whenInited_of_not_inited (s t : State) (h : s.status.inited = false) :
    whenInited s t = .next (s.record .notInit) := by
  simp [whenInited, h]

/-- All that a gated command can answer. -/
theorem whenInited_next (s t u : State) (h : whenInited s t = .next u) :
    (s.status.inited = true ∧ u = t) ∨ (s.status.inited = false ∧ u = s.record .notInit) := by
  cases hi : s.status.inited with
  | true => rw [whenInited_of_inited s t hi] at h; injection h with h; exact .inl ⟨rfl, h.symm⟩
  | false => rw [whenInited_of_not_inited s t hi] at h; injection h with h; exact .inr ⟨rfl, h.symm⟩

/-- A gated command always answers a next state. -/
theorem whenInited_answers (s t : State) : ∃ u, whenInited s t = .next u := by
  cases hi : s.status.inited with
  | true => exact ⟨t, whenInited_of_inited s t hi⟩
  | false => exact ⟨_, whenInited_of_not_inited s t hi⟩

/-- All that a DMEM write of the host can answer. -/
theorem dmemWriteByHost_next (a : Word) (v : Byte) (s t : State) (h : dmemWriteByHost a v s = .next t) :
    a.toNat < s.dmemSize.val ∧ t = s.setDmem (Memory.write s.dmem a.toNat v) := by
  unfold dmemWriteByHost at h
  split at h
  · injection h with h; exact ⟨‹_›, h.symm⟩
  · cases h

/-- All that the taking of a response can answer. -/
theorem takeResponseByHost_next (s t : State) (h : takeResponseByHost s = .next t) :
    ∃ w q, s.respq = w :: q ∧ t = { s with respq := q } := by
  unfold takeResponseByHost at h
  split at h
  · cases h
  · injection h with h; exact ⟨_, _, ‹_›, h.symm⟩

/-- The codes that are recorded lie between 1 and 6. -/
theorem codeNumber_range (c : RejectCode) : 1 ≤ codeNumber c ∧ codeNumber c ≤ 6 := by
  cases c <;> decide

end Sys2Proof.Machine
end

