-- ==== Sys2Proof/Laws/Invariant.lean ====
section
/-! SUPPORT. What the invariant depends on. -/

namespace Sys2Proof

open Sys2Proof.Machine

/-- The invariant is about DMEM, its size, STATUS, CFG and the parser alone. -/
theorem Inv.congr (s t : State) (h : Inv s) (hm : t.dmem = s.dmem) (hz : t.dmemSize = s.dmemSize)
    (hs : t.status = s.status) (hc : t.cfg = s.cfg) (hp : t.parse = s.parse) : Inv t where
  dmem_wf := by rw [hm]; exact h.dmem_wf
  dmem_inside := by rw [hm, hz]; exact h.dmem_inside
  rounds_legal := by rw [hs, hc]; exact h.rounds_legal
  errcode_zero := by rw [hs]; exact h.errcode_zero
  errcode_code := by rw [hs]; exact h.errcode_code
  parse_awaits := by rw [hp]; exact h.parse_awaits

/-- A rejection keeps the invariant. -/
theorem Inv.record (s : State) (c : RejectCode) (h : Inv s) : Inv (s.record c) where
  dmem_wf := h.dmem_wf
  dmem_inside := h.dmem_inside
  rounds_legal := h.rounds_legal
  errcode_zero := by simp
  errcode_code := fun _ => by
    rw [State.record_errcode]
    split
    · exact h.errcode_code ‹_›
    · exact codeNumber_range c
  parse_awaits := h.parse_awaits

end Sys2Proof
end

