-- ==== Sys2Proof/Laws/Memory.lean ====
section
/-! SUPPORT. What the operations over DMEM do: a read after a write, the canonical form and the range kept by every
write, and a run of combined bytes. -/

namespace Sys2Proof.Machine

/-- An address below every listed one reads as unlisted. -/
theorem Memory.read_of_lt (m : Memory) (a : Nat) (h : ∀ c ∈ m, a < c.1) : Memory.read m a = Memory.unlisted := by
  induction m with
  | nil => rfl
  | cons c m ih =>
    have hc := h c (by simp)
    rw [Memory.read, if_neg (by omega)]
    exact ih fun d hd => h d (by simp [hd])

/-- The entries of a written memory are the written one and entries of the old memory. -/
theorem Memory.mem_write (m : Memory) (a : Nat) (v : Byte) (c : Host.Cell) (h : c ∈ Memory.write m a v) :
    (c = (a, v) ∧ v ≠ Memory.unlisted) ∨ c ∈ m := by
  induction m with
  | nil =>
    rw [Memory.write] at h
    split at h
    · simp at h
    · exact .inl ⟨by simpa using h, ‹_›⟩
  | cons d m ih =>
    obtain ⟨b, u⟩ := d
    rw [Memory.write] at h
    split at h
    · split at h
      · exact .inr h
      · rcases List.mem_cons.1 h with h | h
        · exact .inl ⟨h, ‹_›⟩
        · exact .inr h
    · split at h
      · split at h
        · exact .inr (by simp [h])
        · rcases List.mem_cons.1 h with h | h
          · exact .inl ⟨h, ‹_›⟩
          · exact .inr (by simp [h])
      · rcases List.mem_cons.1 h with h | h
        · exact .inr (by simp [h])
        · exact (ih h).imp id fun h => by simp [h]

/-- A write keeps the canonical form. -/
theorem Memory.write_wf (m : Memory) (a : Nat) (v : Byte) (h : Memory.wf m) : Memory.wf (Memory.write m a v) := by
  refine ⟨?_, fun c hc => ?_⟩
  · obtain ⟨hp, -⟩ := h
    induction m with
    | nil => rw [Memory.write]; split <;> simp
    | cons d m ih =>
      obtain ⟨b, u⟩ := d
      obtain ⟨hb, hm⟩ := List.pairwise_cons.1 hp
      rw [Memory.write]
      split
      · split
        · exact hp
        · refine List.pairwise_cons.2 ⟨fun c hc => ?_, hp⟩
          rcases List.mem_cons.1 hc with rfl | hc
          · assumption
          · have := hb c hc; simp only at *; omega
      · split
        · split
          · exact hm
          · subst_vars; exact List.pairwise_cons.2 ⟨hb, hm⟩
        · refine List.pairwise_cons.2 ⟨fun c hc => ?_, ih hm⟩
          rcases Memory.mem_write m a v c hc with ⟨rfl, -⟩ | hc
          · simp only; omega
          · exact hb c hc
  · rcases Memory.mem_write m a v c hc with ⟨rfl, hv⟩ | hc
    · exact hv
    · exact h.2 c hc

/-- A write inside DMEM keeps every listed address inside. -/
theorem Memory.write_inside (m : Memory) (a : Nat) (v : Byte) (size : Nat) (ha : a < size)
    (h : Memory.inside m size) : Memory.inside (Memory.write m a v) size := fun c hc => by
  rcases Memory.mem_write m a v c hc with ⟨rfl, -⟩ | hc
  · exact ha
  · exact h c hc

/-- A read after a write: the value at the written address, the old value elsewhere (R58). -/
theorem Memory.read_write (m : Memory) (a b : Nat) (v : Byte) (h : Memory.wf m) :
    Memory.read (Memory.write m a v) b = if b = a then v else Memory.read m b := by
  obtain ⟨hp, -⟩ := h
  induction m with
  | nil =>
    rw [Memory.write]
    split <;> split <;> simp_all [Memory.read, eq_comm]
  | cons d m ih =>
    obtain ⟨c, u⟩ := d
    obtain ⟨hc, hm⟩ := List.pairwise_cons.1 hp
    have low : a ≤ c → ∀ e ∈ m, a < e.1 := fun h e he => by have := hc e he; simp only at this; omega
    rw [Memory.write]
    split
    · split
      · split
        · subst_vars
          rw [Memory.read, if_neg (by omega)]
          exact Memory.read_of_lt m _ (low (by omega))
        · rfl
      · by_cases hb : b = a
        · simp [Memory.read, hb]
        · simp [Memory.read, hb, Ne.symm hb]
    · split
      · subst_vars
        split
        · split
          · subst_vars; exact Memory.read_of_lt m _ (low (le_refl _))
          · rw [Memory.read, if_neg (Ne.symm ‹_›)]
        · by_cases hb : b = c
          · simp [Memory.read, hb]
          · simp [Memory.read, hb, Ne.symm hb]
      · rw [Memory.read, Memory.read, ih hm]
        by_cases hb : b = a
        · subst hb; simp [Ne.symm ‹¬ b = c›]
        · simp [hb]

/-- A combined byte keeps the canonical form. -/
theorem combine_wf (mode : Mode) (m : Memory) (a : Nat) (k : Byte) (h : Memory.wf m) :
    Memory.wf (combine mode m a k) := by
  cases mode <;> exact Memory.write_wf _ _ _ h

/-- A combined byte inside DMEM keeps every listed address inside. -/
theorem combine_inside (mode : Mode) (m : Memory) (a : Nat) (k : Byte) (size : Nat) (ha : a < size)
    (h : Memory.inside m size) : Memory.inside (combine mode m a k) size := by
  cases mode <;> exact Memory.write_inside _ _ _ _ ha h

/-- Every byte but the combined one reads as before. -/
theorem combine_read_of_ne (mode : Mode) (m : Memory) (a b : Nat) (k : Byte) (h : Memory.wf m) (hb : b ≠ a) :
    Memory.read (combine mode m a k) b = Memory.read m b := by
  cases mode <;> simp [combine, Memory.read_write _ _ _ _ h, hb]

/-- A run of combined bytes keeps the canonical form. -/
theorem combineBytes_wf (mode : Mode) (ks : List Byte) (m : Memory) (a : Nat) (h : Memory.wf m) :
    Memory.wf (combineBytes mode m a ks) := by
  induction ks generalizing m a with
  | nil => exact h
  | cons k ks ih => exact ih _ _ (combine_wf mode m a k h)

/-- A run of combined bytes inside DMEM keeps every listed address inside. -/
theorem combineBytes_inside (mode : Mode) (ks : List Byte) (m : Memory) (a size : Nat)
    (ha : a + ks.length ≤ size) (h : Memory.inside m size) : Memory.inside (combineBytes mode m a ks) size := by
  induction ks generalizing m a with
  | nil => exact h
  | cons k ks ih =>
    simp only [List.length_cons] at ha
    exact ih _ _ (by omega) (combine_inside mode m a k size (by omega) h)

/-- A run of bytes is combined in parts. -/
theorem combineBytes_append (mode : Mode) (ks ls : List Byte) (m : Memory) (a : Nat) :
    combineBytes mode m a (ks ++ ls) = combineBytes mode (combineBytes mode m a ks) (a + ks.length) ls := by
  induction ks generalizing m a with
  | nil => rfl
  | cons k ks ih => simp [combineBytes, ih, Nat.add_assoc, Nat.add_comm 1]

end Sys2Proof.Machine
end

