-- ==== Sys2Proof/Laws/Run.lean ====
section
/-! SUPPORT. Running a list of commands. -/

namespace Sys2Proof.Machine

@[simp] theorem runCommands_nil (s : State) : runCommands [] s = .next s := rfl

/-- The first command answers, and the others run from there. -/
theorem runCommands_cons (i : Instr) (is : List Instr) (s t : State) (h : exec i s = .next t) :
    runCommands (i :: is) s = runCommands is t := by
  simp [runCommands, h]

/-- A list of commands runs in two parts. -/
theorem runCommands_append (is js : List Instr) (s t : State) (h : runCommands is s = .next t) :
    runCommands (is ++ js) s = runCommands js t := by
  induction is generalizing s with
  | nil => rw [runCommands_nil] at h; injection h with h; rw [List.nil_append, h]
  | cons i is ih =>
    match hi : exec i s with
    | .next u =>
      rw [runCommands_cons i is s u hi] at h
      rw [List.cons_append, runCommands_cons i _ s u hi]
      exact ih u h
    | .fault r => simp [runCommands, hi] at h
    | .refused r => simp [runCommands, hi] at h

end Sys2Proof.Machine
end

