-- ==== Sys2Proof/Laws/Step.lean ====
section
/-! SUPPORT. All that a step can do, said once. -/

namespace Sys2Proof.Machine

/-- The parser reaches an action that is no word without taking any. -/
@[simp] theorem parseInput_nil (p : Parse) : parseInput p [] = .waiting p [] := rfl

@[simp] theorem step_of_nil (s : State) (h : s.input = []) : step s = runIdle s := by
  simp [step, h]

@[simp] theorem step_of_word (s : State) (w : Word) (rest : List Input) (h : s.input = .word w :: rest) :
    step s = runParsed s (parseInput s.parse s.input) := by
  simp [step, h]

@[simp] theorem step_of_dmemWrite (s : State) (a : Word) (v : Byte) (rest : List Input)
    (h : s.input = .dmemWrite a v :: rest) : step s = dmemWriteByHost a v { s with input := rest } := by
  simp [step, h]

@[simp] theorem step_of_takeResponse (s : State) (rest : List Input) (h : s.input = .takeResponse :: rest) :
    step s = takeResponseByHost { s with input := rest } := by
  simp [step, h]

@[simp] theorem step_of_reset (s : State) (rest : List Input) (h : s.input = .reset :: rest) :
    step s = .next (hardReset { s with input := rest }) := by
  simp [step, h]

/-- A step that answers a next state idles, executes a command, rejects a header, takes words of an incomplete
command, or does one action of the host. -/
theorem step_cases (s t : State) (h : step s = .next t) :
    (s.input = [] ∧ s.parse = .header ∧ t = s)
      ∨ (∃ i rest, parseInput s.parse s.input = .command i rest
          ∧ exec i { s with parse := .header, input := rest } = .next t)
      ∨ (∃ c rest, parseInput s.parse s.input = .rejected c rest
          ∧ t = State.record { s with parse := .header, input := rest } c)
      ∨ (∃ p rest, parseInput s.parse s.input = .waiting p rest ∧ t = { s with parse := p, input := rest })
      ∨ (∃ a v rest, s.input = .dmemWrite a v :: rest ∧ a.toNat < s.dmemSize.val
          ∧ t = { s with dmem := Memory.write s.dmem a.toNat v, input := rest })
      ∨ (∃ w q rest, s.input = .takeResponse :: rest ∧ s.respq = w :: q ∧ t = { s with respq := q, input := rest })
      ∨ (∃ rest, s.input = .reset :: rest ∧ t = hardReset { s with input := rest }) := by
  match hi : s.input with
  | [] =>
    rw [step_of_nil s hi] at h
    unfold runIdle at h
    split at h
    · injection h with h; exact .inl ⟨rfl, ‹_›, h.symm⟩
    · cases h
  | .word w :: rest =>
    rw [step_of_word s w rest hi] at h
    rw [← hi]
    match hp : parseInput s.parse s.input with
    | .command i r => rw [hp] at h; exact .inr (.inl ⟨i, r, rfl, h⟩)
    | .rejected c r => rw [hp] at h; injection h with h; exact .inr (.inr (.inl ⟨c, r, rfl, h.symm⟩))
    | .waiting p r => rw [hp] at h; injection h with h; exact .inr (.inr (.inr (.inl ⟨p, r, rfl, h.symm⟩)))
  | .dmemWrite a v :: rest =>
    rw [step_of_dmemWrite s a v rest hi] at h
    obtain ⟨ha, ht⟩ := dmemWriteByHost_next a v _ t h
    exact .inr (.inr (.inr (.inr (.inl ⟨a, v, rest, rfl, ha, ht⟩))))
  | .takeResponse :: rest =>
    rw [step_of_takeResponse s rest hi] at h
    obtain ⟨w, q, hq, ht⟩ := takeResponseByHost_next _ t h
    exact .inr (.inr (.inr (.inr (.inr (.inl ⟨w, q, rest, rfl, hq, ht⟩)))))
  | .reset :: rest =>
    rw [step_of_reset s rest hi] at h
    injection h with h
    exact .inr (.inr (.inr (.inr (.inr (.inr ⟨rest, rfl, h.symm⟩)))))

end Sys2Proof.Machine
end

