-- ==== Sys2Proof/Laws/Streaming.lean ====
section
/-! SUPPORT. What the steps of PRODUCE can do: the fields they keep, the counter words aside, and the range of DMEM
they write. -/

namespace Sys2Proof.Machine

/-- Step 1 hands out no more than is asked and no more than is buffered. -/
theorem drainCount_le (s : State) (len : Nat) : drainCount s len ≤ len ∧ s.pos.val + drainCount s len ≤ 64 := by
  have := s.pos.isLt
  unfold drainCount
  omega

/-- The buffered bytes of step 1 are as many as it hands out. -/
theorem drain_length (s : State) (len : Nat) :
    ((s.B.toList.drop s.pos.val).take (drainCount s len)).length = drainCount s len := by
  have := drainCount_le s len
  simp; omega

/-- What the steps of a PRODUCE keep (R29): all but S, W, B, POS and DMEM, and of S all but the counter words. -/
structure ProduceKeeps (s t : State) : Prop where
  words : ∀ j : Index, j ≠ 12 → (s.cfg.layout = .djb → j ≠ 13) → t.S[j] = s.S[j]
  rest : t = { s with S := t.S, W := t.W, B := t.B, pos := t.pos, dmem := t.dmem }

theorem ProduceKeeps.refl (s : State) : ProduceKeeps s s := ⟨fun _ _ _ => rfl, rfl⟩

/-- What is kept of CFG. -/
theorem ProduceKeeps.cfg (s t : State) (h : ProduceKeeps s t) : t.cfg = s.cfg := by rw [h.rest]

/-- What is kept of STATUS. -/
theorem ProduceKeeps.status (s t : State) (h : ProduceKeeps s t) : t.status = s.status := by rw [h.rest]

theorem ProduceKeeps.trans (s t u : State) (h : ProduceKeeps s t) (h' : ProduceKeeps t u) : ProduceKeeps s u := by
  refine ⟨fun j h1 h2 => ?_, ?_⟩
  · rw [h'.words j h1 (by rw [h.cfg]; exact h2), h.words j h1 h2]
  · rw [h'.rest, h.rest]

theorem drain_keeps (mode : Mode) (addr len : Nat) (s : State) : ProduceKeeps s (drain mode addr len s) :=
  ⟨fun _ _ _ => rfl, rfl⟩

/-- A block generation keeps all but W and the counter words. -/
theorem blockFn_keeps (s : State) : ProduceKeeps s (blockFn s).2 :=
  ⟨fun j h h' => by rw [blockFn_S]; exact advF_of_ne _ _ j h h', rfl⟩

/-- A change of DMEM alone keeps the rest. -/
theorem setDmem_keeps (s : State) (m : Memory) : ProduceKeeps s (s.setDmem m) := ⟨fun _ _ _ => rfl, rfl⟩

/-- A block generated into the buffer keeps all but B, POS, W and the counter words. -/
theorem refill_keeps (s : State) (p : Fin 65) : ProduceKeeps s (refill s p) :=
  ⟨fun j h h' => by rw [refill_S]; exact advF_of_ne _ _ j h h', rfl⟩

theorem wholeBlocks_succ (mode : Mode) (k addr : Nat) (s : State) :
    wholeBlocks mode (k + 1) addr s = wholeBlocks mode k (addr + 64)
      ((blockFn s).2.setDmem (combineBytes mode s.dmem addr (blockFn s).1.toList)) := rfl

theorem wholeBlocks_keeps (mode : Mode) (k addr : Nat) (s : State) :
    ProduceKeeps s (wholeBlocks mode k addr s) := by
  induction k generalizing addr s with
  | zero => exact .refl s
  | succ k ih =>
    rw [wholeBlocks_succ]
    exact .trans _ _ _ (.trans _ _ _ (blockFn_keeps s) (setDmem_keeps _ _)) (ih _ _)

/-- Whole blocks pass the buffer and the cursor by (R153 step 2). -/
theorem wholeBlocks_buffer (mode : Mode) (k addr : Nat) (s : State) :
    (wholeBlocks mode k addr s).B = s.B ∧ (wholeBlocks mode k addr s).pos = s.pos := by
  induction k generalizing addr s with
  | zero => exact ⟨rfl, rfl⟩
  | succ k ih =>
    rw [wholeBlocks_succ]
    exact ih _ _

theorem tailBlock_keeps (mode : Mode) (addr : Nat) (rem : Fin 64) (s : State) :
    ProduceKeeps s (tailBlock mode addr rem s) := by
  unfold tailBlock
  split
  · exact .refl s
  · exact .trans _ _ _ (refill_keeps s _) (setDmem_keeps _ _)

/-- The three steps of a PRODUCE in one equation. -/
theorem produce_eq (mode : Mode) (addr len : Nat) (s : State) :
    produce mode addr len s
      = tailBlock mode (addr + drainCount s len + 64 * ((len - drainCount s len) / 64))
          ⟨(len - drainCount s len) % 64, Nat.mod_lt _ (by decide)⟩
          (wholeBlocks mode ((len - drainCount s len) / 64) (addr + drainCount s len) (drain mode addr len s)) := rfl

/-- All that an accepted PRODUCE keeps. -/
theorem produce_keeps (mode : Mode) (addr len : Nat) (s : State) : ProduceKeeps s (produce mode addr len s) := by
  rw [produce_eq]
  exact .trans _ _ _ (.trans _ _ _ (drain_keeps ..) (wholeBlocks_keeps ..)) (tailBlock_keeps ..)

/-! ### DMEM -/

/-- A property of DMEM that every run of combined bytes between two addresses keeps is kept by whole blocks. -/
theorem wholeBlocks_dmem (P : Memory → Prop) (mode : Mode) (lo hi k addr : Nat) (s : State)
    (step : ∀ m a (ks : List Byte), lo ≤ a → a + ks.length ≤ hi → P m → P (combineBytes mode m a ks))
    (h1 : lo ≤ addr) (h2 : addr + 64 * k ≤ hi) (h : P s.dmem) : P (wholeBlocks mode k addr s).dmem := by
  induction k generalizing addr s with
  | zero => exact h
  | succ k ih =>
    rw [wholeBlocks_succ]
    refine ih _ _ (by omega) (by omega) ?_
    rw [State.setDmem_dmem]
    exact step _ _ _ h1 (by simp; omega) h

/-- A property of DMEM that every run of combined bytes inside the range of a PRODUCE keeps is kept by it: whatever is
written, is written inside the range. -/
theorem produce_dmem (P : Memory → Prop) (mode : Mode) (addr len : Nat) (s : State)
    (step : ∀ m a (ks : List Byte), addr ≤ a → a + ks.length ≤ addr + len → P m → P (combineBytes mode m a ks))
    (h : P s.dmem) : P (produce mode addr len s).dmem := by
  have hd := drainCount_le s len
  rw [produce_eq]
  have h1 : P (drain mode addr len s).dmem := step _ _ _ (le_refl _) (by rw [drain_length]; omega) h
  have h2 := wholeBlocks_dmem P mode addr (addr + len) ((len - drainCount s len) / 64) (addr + drainCount s len) _
    step (by omega) (by omega) h1
  unfold tailBlock
  split
  · exact h2
  · rw [State.setDmem_dmem]
    exact step _ _ _ (by omega) (by simp; omega) h2

end Sys2Proof.Machine
end

