-- ==== Sys2Proof/Tests/Slice0.lean ====
section
/-! SUPPORT. The model's own tests: expected values are written out from the spec's tables, examples and vectors
(95_test_vectors.md and the "Example" lines of the rules), never from a run of the model. -/

namespace Sys2Proof.Tests

open Sys2Proof.Machine

/-! ### Small states -/

/-- A fresh engine with 256 bytes of DMEM, nothing initialised. -/
def fresh : State := { State.reset with dmemSize := ⟨256, by decide⟩ }

/-- The engine right after INIT. -/
def engine (l : Layout) (r : BitVec 8) : State := construct l r fresh

/-- The working array `W[i] = i` of 95_test_vectors.md 2.2. -/
def iota : Words := Vector.ofFn fun i => BitVec.ofNat 32 i.val

/-- The state words of V3. -/
def rfcWords : Words :=
  #v[0x61707865, 0x3320646e, 0x79622d32, 0x6b206574, 0x03020100, 0x07060504, 0x0b0a0908, 0x0f0e0d0c,
    0x13121110, 0x17161514, 0x1b1a1918, 0x1f1e1d1c, 0x00000001, 0x09000000, 0x4a000000, 0x00000000]

/-- The working array of V3 after 20 rounds. -/
def rfcPermuted : Words :=
  #v[0x837778ab, 0xe238d763, 0xa67ae21e, 0x5950bb2f, 0xc4f2d0c7, 0xfc62bb2f, 0x8fa018fc, 0x3f5ec7b7,
    0x335271c2, 0xf29489f3, 0xeabda8fc, 0x82e46ebd, 0xd19c12b4, 0xb04e16de, 0x9e83d0cb, 0x4e3c50a2]

/-- The output words of V3. -/
def rfcOutput : Words :=
  #v[0xe4e7f110, 0x15593bd1, 0x1fdd0f50, 0xc47120a3, 0xc7f4d1c7, 0x0368c033, 0x9aaa2204, 0x4e6cd4c3,
    0x466482d2, 0x09aa9f07, 0x05d7c214, 0xa2028bd9, 0xd19c12b5, 0xb94e16de, 0xe883d0cb, 0x4e3c50a2]

/-- The serialized block of V3. -/
def rfcBlock : List Byte :=
  [0x10, 0xf1, 0xe7, 0xe4, 0xd1, 0x3b, 0x59, 0x15, 0x50, 0x0f, 0xdd, 0x1f, 0xa3, 0x20, 0x71, 0xc4,
   0xc7, 0xd1, 0xf4, 0xc7, 0x33, 0xc0, 0x68, 0x03, 0x04, 0x22, 0xaa, 0x9a, 0xc3, 0xd4, 0x6c, 0x4e]
  ++ [0xd2, 0x82, 0x64, 0x46, 0x07, 0x9f, 0xaa, 0x09, 0x14, 0xc2, 0xd7, 0x05, 0xd9, 0x8b, 0x02, 0xa2,
   0xb5, 0x12, 0x9c, 0xd1, 0xde, 0x16, 0x4e, 0xb9, 0xcb, 0xd0, 0x83, 0xe8, 0xa2, 0x50, 0x3c, 0x4e]

/-- The plaintext of V4. -/
def rfcPlaintext : List Byte :=
  "Ladies and Gentlemen of the class of '99: If I could offer you only one tip for the future, sunscreen would be it.".toList.map fun c => BitVec.ofNat 8 c.toNat

/-- The ciphertext of V4. -/
def rfcCiphertext : List Byte :=
  [0x6e, 0x2e, 0x35, 0x9a, 0x25, 0x68, 0xf9, 0x80, 0x41, 0xba, 0x07, 0x28, 0xdd, 0x0d, 0x69, 0x81,
   0xe9, 0x7e, 0x7a, 0xec, 0x1d, 0x43, 0x60, 0xc2, 0x0a, 0x27, 0xaf, 0xcc, 0xfd, 0x9f, 0xae, 0x0b,
   0xf9, 0x1b, 0x65, 0xc5, 0x52, 0x47, 0x33, 0xab]
  ++ [0x8f, 0x59, 0x3d, 0xab, 0xcd, 0x62, 0xb3, 0x57, 0x16, 0x39, 0xd6, 0x24, 0xe6, 0x51, 0x52, 0xab,
   0x8f, 0x53, 0x0c, 0x35, 0x9f, 0x08, 0x61, 0xd8, 0x07, 0xca, 0x0d, 0xbf, 0x50, 0x0d, 0x6a, 0x61,
   0x56, 0xa3, 0x8e, 0x08, 0x8a, 0x22, 0xb6, 0x5e]
  ++ [0x52, 0xbc, 0x51, 0x4d, 0x16, 0xcc, 0xf8, 0x06, 0x81, 0x8c, 0xe9, 0x1a, 0xb7, 0x79, 0x37, 0x36,
   0x5a, 0xf9, 0x0b, 0xbf, 0x74, 0xa3, 0x5b, 0xe6, 0xb4, 0x0b, 0x8e, 0xed, 0xf2, 0x78, 0x5e, 0x42,
   0x87, 0x4d]

/-- The engine of V3. -/
def rfcEngine : State := { engine .ietf 20 with S := rfcWords }

/-- The state a command or a step goes to. -/
def nextOf : Host.Outcome State Fault Refusal → Option State
  | .next t => some t
  | .fault _ => none
  | .refused _ => none

/-- The fault a step stops with. -/
def faultOf : Host.Outcome State Fault Refusal → Option Fault
  | .next _ => none
  | .fault r => some r
  | .refused _ => none

/-- The response words after a command. -/
def respAfter (o : Host.Outcome State Fault Refusal) : Option (List Word) := (nextOf o).map State.respq

/-- Bytes of DMEM from an address on. -/
def bytesAt (s : State) (a n : Nat) : List Byte := (List.range n).map fun i => Memory.read s.dmem (a + i)

/-- DMEM with bytes written from an address on. -/
def dmemWith (a : Nat) (bs : List Byte) : Memory := combineBytes .copy [] a bs

/-! ### WellFormed refuses ill-formed terms -/

/-- R77: 21 is no legal round count, 7 neither. -/
theorem test_wellFormed_refuses_rounds :
    (Instr.init .ietf 21).wellFormed = false ∧ (Instr.init .djb 7).wellFormed = false
      ∧ (Instr.init .djb 12).wellFormed = true := by decide

/-- R60: the range of `PRODUCE copy, 0xffffffff, 2` fits no DMEM; with length 1 it fits the largest. -/
theorem test_wellFormed_refuses_range :
    (Instr.produce .copy 0xFFFFFFFF 2).wellFormed = false ∧ (Instr.produce .xor 0xFFFFFFFF 1).wellFormed = true := by
  decide

/-! ### Decoding, words of 95_test_vectors.md 2.1 and of the opcode map (R81) -/

theorem test_decode_control :
    decode [0x00000000] = .command .nop [] ∧ decode [0x01000014] = .command (.init .djb 20) []
      ∧ decode [0x01000114] = .command (.init .ietf 20) [] ∧ decode [0x02000000] = .command .clear []
      ∧ decode [0x03000000] = .command .rdstat [] ∧ decode [0x04000000] = .command .clrerr [] := by decide

theorem test_decode_state_access :
    decode [0x0800000d, 0x09000000] = .command (.wrs 13 0x09000000) []
      ∧ decode [0x0900000c] = .command (.rds 12) []
      ∧ decode [0x0a000000, 1, 0] = .command (.wrctr 1 0) [] ∧ decode [0x0b000000] = .command .rdctr [] := by decide

theorem test_decode_permutation :
    decode [0x10000000] = .command .ldw [] ∧ decode [0x11000003, 0x01234567] = .command (.wrw 3 0x01234567) []
      ∧ decode [0x1200000f] = .command (.rdw 15) [] ∧ decode [0x1300278d] = .command (.qr 2 7 8 13) []
      ∧ decode [0x14000000] = .command .colr [] ∧ decode [0x15000000] = .command .diagr []
      ∧ decode [0x16000000] = .command .perm [] ∧ decode [0x17000000] = .command .ff [] := by decide

theorem test_decode_block_core_and_streaming :
    decode [0x20000000] = .command .ser [] ∧ decode [0x21000000] = .command .adv []
      ∧ decode [0x22000000] = .command .gen [] ∧ decode [0x23000000] = .command .flush []
      ∧ decode [0x24000000, 0, 0x72] = .command (.produce .xor 0 114) []
      ∧ decode [0x24000001, 0, 0x40] = .command (.produce .copy 0 64) [] := by decide

/-- Illegal opcodes take no operand, a reserved bit leaves the operand count alone (R82, R83), and missing operand
words are awaited (R73). -/
theorem test_decode_rejections :
    decode [0x30000000, 7] = .rejected .illegalOp [7] ∧ decode [0x08000010, 7] = .rejected .reserved []
      ∧ decode [0x01000214] = .rejected .reserved [] ∧ decode [0x13010000] = .rejected .reserved []
      ∧ decode [0x24000002, 0, 4] = .rejected .reserved [] ∧ decode [0x0a000000, 1] = .incomplete := by decide

/-- `match` and `mask` of the opcode map (R81), row by row: the number and the reserved bits. -/
theorem test_opcode_map :
    Opcode.all.map (fun op => (op.number ++ (0 : BitVec 24), (0xFF : BitVec 8) ++ op.format.reservedMask))
      = [(0x00000000, 0xFFFFFFFF), (0x01000000, 0xFFFFFE00), (0x02000000, 0xFFFFFFFF), (0x03000000, 0xFFFFFFFF),
         (0x04000000, 0xFFFFFFFF), (0x08000000, 0xFFFFFFF0), (0x09000000, 0xFFFFFFF0), (0x0A000000, 0xFFFFFFFF),
         (0x0B000000, 0xFFFFFFFF), (0x10000000, 0xFFFFFFFF), (0x11000000, 0xFFFFFFF0)]
        ++ [(0x12000000, 0xFFFFFFF0), (0x13000000, 0xFFFF0000), (0x14000000, 0xFFFFFFFF), (0x15000000, 0xFFFFFFFF),
         (0x16000000, 0xFFFFFFFF), (0x17000000, 0xFFFFFFFF), (0x20000000, 0xFFFFFFFF), (0x21000000, 0xFFFFFFFF),
         (0x22000000, 0xFFFFFFFF), (0x23000000, 0xFFFFFFFF), (0x24000000, 0xFFFFFFFE)] := by decide

/-- Bits counted as the opcode table counts them: operand words above the header. -/
theorem test_decodeTableWord :
    decodeTableWord 32 0x13000123 = some (.qr 0 1 2 3)
      ∧ decodeTableWord 64 0x012345671100000F = some (.wrw 15 0x01234567)
      ∧ decodeTableWord 32 0x24000001 = some (.produce .copy 0 0) ∧ decodeTableWord 32 0xFF000000 = none := by decide

/-! ### Fetching and rejecting -/

/-- R191: the first instruction after reset is fetched and run. -/
theorem test_step_runs_first_instruction :
    (nextOf (step (State.reset.withFetchWord 32 0x01000114))).map (fun t => (t.cfg, t.status.inited, t.input))
      = some (⟨.ietf, 20⟩, true, []) := by decide

/-- 95_test_vectors.md 2.7: GEN before INIT is NOT_INIT, `0x09000010` is RESERVED, and the words after are left. -/
theorem test_step_rejects :
    (nextOf (step (State.reset.withFetchWord 32 0x22000000))).map (fun t => (t.status, t.respq))
        = some (⟨false, true, 3⟩, [])
      ∧ (nextOf (step (fresh.supplyWords [0x09000010, 0x03000000]))).map (fun t => (t.status, t.input))
        = some (⟨false, true, 2⟩, [.word 0x03000000])
      ∧ (nextOf (step (fresh.supplyWords [0x05000000, 0x08000001]))).map (fun t => (t.status.errcode, t.input))
        = some (1, [.word 0x08000001]) := by decide

/-- R219: missing operand words are awaited, and complete the command later. -/
theorem test_step_awaits_operands :
    (nextOf (step (fresh.supplyWords [0x0a000000, 5]))).map State.parse = some (.operands 0x0a000000 [5])
      ∧ faultOf (step { fresh with parse := .operands 0x0a000000 [5] }) = some .awaitingOperands
      ∧ (nextOf (step (State.supplyWords { engine .djb 20 with parse := .operands 0x0a000000 [5] } [6]))).map
          (fun t => (t.S[12], t.S[13], t.parse)) = some (5, 6, .header) := by decide

/-- R52, R58, R36: the host's actions between commands. -/
theorem test_host_actions :
    (nextOf (step (fresh.supply [.dmemWrite 255 0x5a]))).map (fun t => bytesAt t 254 2) = some [0, 0x5a]
      ∧ faultOf (step (fresh.supply [.dmemWrite 256 1])) = some .noSuchAddress
      ∧ (nextOf (step { fresh with respq := [7, 8], input := [.takeResponse] })).map State.respq = some [8]
      ∧ faultOf (step (fresh.supply [.takeResponse])) = some .noResponse := by decide

/-- R240: a reset inside a command abandons it and keeps DMEM. -/
theorem test_hardware_reset :
    (nextOf (step { engine .djb 20 with
        parse := .operands 0x0a000000 [5], respq := [1], dmem := [(3, 9)], input := [.reset] })).map
      (fun t => (t.parse, t.respq, t.status, t.dmem)) = some (.header, [], ⟨false, false, 0⟩, [(3, 9)]) := by decide

/-- Writing the byte an unlisted address reads as removes the entry, and entries stay in rising order. -/
theorem test_memory_is_canonical :
    Memory.write (Memory.write (Memory.write [] 9 1) 4 2) 9 0 = [(4, 2)]
      ∧ Memory.write (Memory.write [] 9 1) 4 2 = [(4, 2), (9, 1)] := by decide

/-! ### Control -/

theorem test_nop : nextOf (exec .nop (engine .djb 8)) = some (engine .djb 8) := by decide

/-- R191, 2.6: a legal INIT, and one with 21 rounds that keeps the configuration. -/
theorem test_init :
    (nextOf (exec (.init .ietf 20) fresh)).map (fun t => (t.S.toList.take 5, t.pos, t.status.inited))
        = some ([0x61707865, 0x3320646e, 0x79622d32, 0x6b206574, 0], 64, true) := by decide

theorem test_init_rejects_21_rounds :
    (nextOf (exec (.init .djb 21) (engine .ietf 12))).map statusImage = some 0x400c0143 := by decide

/-- 2.6: CLEAR zeroes the constants and keeps CFG. -/
theorem test_clear :
    (nextOf (exec .clear { rfcEngine with W := iota, pos := 3 })).map (fun t => (t.S, t.W, statusImage t))
      = some (Vector.replicate 16 0, Vector.replicate 16 0, 0x40140101) := by decide

/-- R194: after INIT, and after a 114-byte PRODUCE. -/
theorem test_rdstat :
    respAfter (exec .rdstat (engine .ietf 20)) = some [0x40140101]
      ∧ respAfter (exec .rdstat { engine .ietf 20 with pos := 50 }) = some [0x32140101] := by decide

/-- 2.4, 2.5, 2.6: CFG and POS read 0 before INIT; ERRCODE stands in bits 7 to 4. -/
theorem test_rdstat_errors :
    respAfter (exec .rdstat (fresh.record .badRounds)) = some [0x00000042]
      ∧ respAfter (exec .rdstat ((engine .ietf 20).record .badOperand)) = some [0x40140153]
      ∧ respAfter (exec .rdstat ((engine .djb 20).record .range)) = some [0x40140063] := by decide

theorem test_clrerr :
    (nextOf (exec .clrerr (fresh.record .badRounds))).map statusImage = some 0 := by decide

/-! ### State access -/

theorem test_wrs : (nextOf (exec (.wrs 12 1) (engine .ietf 20))).map (fun t => (t.S[12], t.S[13], t.S[0]))
    = some (1, 0, 0x61707865) := by decide

theorem test_rds : respAfter (exec (.rds 3) (engine .ietf 20)) = some [0x6b206574] := by decide

/-- 2.5: DJB writes both words; IETF rejects a nonzero high word. -/
theorem test_wrctr :
    (nextOf (exec (.wrctr 0x89abcdef 0x01234567) (engine .djb 20))).map (fun t => (t.S[12], t.S[13]))
        = some (0x89abcdef, 0x01234567)
      ∧ (nextOf (exec (.wrctr 5 1) (engine .ietf 20))).map (fun t => (t.S[12], statusImage t))
        = some (0, 0x40140153) := by decide

/-- 2.5: the nonce word S[13] is never read as counter in IETF layout. -/
theorem test_rdctr :
    respAfter (exec .rdctr { engine .ietf 20 with S := initialWords.set 13 0x77 }) = some [0, 0]
      ∧ respAfter (exec .rdctr { engine .djb 20 with S := initialWords.set 13 0x77 }) = some [0, 0x77] := by decide

/-! ### Permutation -/

theorem test_ldw : (nextOf (exec .ldw rfcEngine)).map State.W = some rfcWords := by decide

theorem test_wrw : (nextOf (exec (.wrw 3 0x01234567) (engine .djb 20))).map (fun t => t.W[3])
    = some 0x01234567 := by decide

theorem test_rdw : respAfter (exec (.rdw 15) { engine .djb 20 with W := iota }) = some [15] := by decide

/-- V11: only words 2, 7, 8 and 13 change. -/
theorem test_qr_on_a_state :
    qrF #v[0x879531e0, 0xc5ecf37d, 0x516461b1, 0xc9a62f8a, 0x44c20ef3, 0x3390af7f, 0xd9fc690b, 0x2a5f714c,
        0x53372767, 0xb00a5631, 0x974c541a, 0x359e9963, 0x5c971061, 0x3d631689, 0x2098d9d6, 0x91dbd320] 2 7 8 13
      = #v[0x879531e0, 0xc5ecf37d, 0xbdb886dc, 0xc9a62f8a, 0x44c20ef3, 0x3390af7f, 0xd9fc690b, 0xcfacafd2,
        0xe46bea80, 0xb00a5631, 0x974c541a, 0x359e9963, 0x5c971061, 0xccc07c79, 0x2098d9d6, 0x91dbd320] := by
  decide +kernel

/-- 2.2: aliased indices, A = C and B = D, and A = B with C = D. -/
theorem test_qr_aliased :
    (nextOf (exec (.qr 0 1 0 1) { engine .djb 20 with W := (Vector.replicate 16 0).set 0 5 |>.set 1 7 })).map
        (fun t => (t.W[0], t.W[1])) = some (0x0b0bcc0c, 0x05e00600)
      ∧ (nextOf (exec (.qr 15 15 0 0) { engine .djb 20 with W := iota })).map (fun t => (t.W[0], t.W[15]))
        = some (0x7f800d00, 0xc1e6837f) := by decide +kernel

/-- R105. -/
theorem test_colr : (nextOf (exec .colr { engine .djb 20 with W := iota })).map State.W
    = some #v[0x8000c004, 0xb000c006, 0x6000c008, 0x5000c00a, 0x64624444, 0xe5e35cdd, 0x63643533, 0xe2e52daa,
      0x08c80488, 0x0bcb06b9, 0x06c6086a, 0x05c50a5b, 0x08c00480, 0x0bc006b0, 0x06c00860, 0x05c00a50] := by
  decide +kernel

/-- R106. -/
theorem test_diagr : (nextOf (exec .diagr { engine .djb 20 with W := iota })).map State.W
    = some #v[0xa000f005, 0xb000d007, 0x4000f009, 0x9000d007, 0xecebcccc, 0x7d7ad555, 0xedebdddd, 0x7a7ca422,
      0x04f40948, 0x09d90799, 0x0afa05aa, 0x0bdb07bb, 0x0bd007b0, 0x04f00940, 0x09d00790, 0x0af005a0] := by
  decide +kernel

/-- R107, V3. -/
theorem test_perm : (nextOf (exec .perm { rfcEngine with W := rfcWords })).map State.W = some rfcPermuted := by
  decide +kernel

/-- R111, V3. -/
theorem test_ff : (nextOf (exec .ff { rfcEngine with W := rfcPermuted })).map State.W = some rfcOutput := by
  decide +kernel

/-! ### Block core -/

/-- R134, V3. -/
theorem test_ser : (nextOf (exec .ser { rfcEngine with W := rfcOutput })).map (fun t => (t.B.toList, t.pos))
    = some (rfcBlock, 0) := by decide +kernel

/-- R135: the wrap in IETF layout does not reach the nonce, in DJB layout it carries. -/
theorem test_adv :
    (nextOf (exec .adv { engine .ietf 20 with S := initialWords.set 12 0xFFFFFFFF |>.set 13 0xabcdef01 })).map
        (fun t => (t.S[12], t.S[13], t.status.err)) = some (0, 0xabcdef01, false)
      ∧ (nextOf (exec .adv { engine .djb 20 with S := initialWords.set 12 0xFFFFFFFF })).map
        (fun t => (t.S[12], t.S[13])) = some (0, 1) := by decide +kernel

/-- R135: the DJB counter wraps at 2^64 without a rejection. -/
theorem test_adv_wraps_at_64_bits :
    (nextOf (exec .adv { engine .djb 20 with S := initialWords.set 12 0xFFFFFFFF |>.set 13 0xFFFFFFFF })).map
        (fun t => (t.S[12], t.S[13], t.S[14], t.status.err)) = some (0, 0, 0, false) := by decide +kernel

/-- R136, V3: the block, the output words, POS = 0 and the counter afterwards. -/
theorem test_gen : (nextOf (exec .gen rfcEngine)).map (fun t => (t.B.toList, t.W, t.pos, t.S))
    = some (rfcBlock, rfcOutput, 0, rfcWords.set 12 2) := by decide +kernel

/-! ### Streaming -/

theorem test_flush : (nextOf (exec .flush { engine .djb 20 with pos := 50 })).map State.pos = some 64 := by decide

/-- V4: a whole block and a tail, XORed over the plaintext. -/
theorem test_produce_xor :
    (nextOf (exec (.produce .xor 0 114)
        { engine .ietf 20 with S := rfcWords.set 13 0, dmem := dmemWith 0 rfcPlaintext })).map
      (fun t => (t.dmem, t.S[12], statusImage t)) = some (dmemWith 0 rfcCiphertext, 3, 0x32140101) := by decide +kernel

/-- 2.4 and V1: from POS = 0 with a block of bytes `i` buffered, 70 bytes of COPY drain the buffer and start the next
block, here the DJB block of counter 1 at its first bytes (V7). -/
theorem test_produce_copy_drains :
    (nextOf (exec (.produce .copy 100 70)
        { engine .djb 20 with S := initialWords.set 12 1, B := Vector.ofFn fun i => BitVec.ofNat 8 i.val, pos := 0 })).map
      (fun t => (bytesAt t 100 3, bytesAt t 162 8, t.pos, t.S[12]))
      = some ([0, 1, 2], [62, 63, 0x9f, 0x07, 0xe7, 0xbe, 0x55, 0x51], 6, 2) := by decide +kernel

/-! ### Host conversions and the assembler -/

/-- R23, R180: "expand 32-byte k" as words. -/
theorem test_default_constants :
    bytesToWords ("expand 32-byte k".toList.map fun c => BitVec.ofNat 8 c.toNat)
      = some [0x61707865, 0x3320646e, 0x79622d32, 0x6b206574] := by decide +kernel

/-- 2.5: nonce bytes, and the DJB counter value 2^32 + 5. -/
theorem test_host_conversions :
    bytesToWords [0, 0, 0, 9, 0, 0, 0, 0x4a, 0, 0, 0, 0] = some [0x09000000, 0x4a000000, 0]
      ∧ counterWords 0x100000005 = (5, 1) ∧ wordsToBytes [0x0d0c0b0a] = [0x0a, 0x0b, 0x0c, 0x0d]
      ∧ setNonceIetfCommands #v[0, 0, 0, 9, 0, 0, 0, 0x4a, 0, 0, 0, 0]
        = [.wrs 13 0x09000000, .wrs 14 0x4a000000, .wrs 15 0] := by decide

/-- P5: NEXT_U64 read little-endian. -/
theorem test_read_u64 :
    readU64 (dmemWith 24 [0xe0, 0x3d, 0xf8, 0xb3, 0x3f, 0x63, 0x57, 0x14]) 24 = 0x1457633fb3f83de0 := by decide

/-- R86 and 2.1. -/
theorem test_assembler :
    assembleLine "QR 2,7,8,13".toList = some [0x1300278d]
      ∧ assembleLine "  init ietf, 20   # 01000114".toList = some [0x01000114]
      ∧ assembleLine "WRS 13, 0x09000000".toList = some [0x0800000d, 0x09000000]
      ∧ assembleLine "Produce xor, 0, 114".toList = some [0x24000000, 0, 0x72]
      ∧ assembleLine ".word 0x30000000".toList = some [0x30000000]
      ∧ assembleLine "# comment".toList = some [] := by decide

/-- R86: an index above 15, an unknown mode and a value that does not fit 32 bits are refused. -/
theorem test_assembler_refuses :
    assembleLine "RDS 16".toList = none ∧ assembleLine "PRODUCE and, 0, 4".toList = none
      ∧ assembleLine "WRS 0, 4294967296".toList = none ∧ assembleLine "JMP 0".toList = none := by decide

/-! ### Witnesses: states and operands that meet the hypotheses of each statement of Obligations.lean, for each clause -/

/-- The initialised engines of the witnesses. -/
theorem engine_inited (l : Layout) (r : BitVec 8) : (engine l r).status.inited = true := rfl

theorem witness_OperandCountIsAFunctionOfOpcode :
    (∃ (h : Word) (ops : List Word), ops.length < operandCountOf h ∧ ops ≠ [])
      ∧ (∃ (h : Word) (ops : List Word), ops.length = operandCountOf h ∧ ops.length = 2)
      ∧ ∃ (h : Word) (ops : List Word), ops.length = operandCountOf h ∧ ops = [] :=
  ⟨⟨0x24000001, [0], by decide⟩, ⟨0x0a000000, [0xFFFFFFFF, 0], by decide⟩, ⟨0xFF000000, [], by decide⟩⟩

/-- The edges of the unassigned ranges (R82). -/
theorem witness_UnassignedOpcodesAreIllegal :
    (∀ h : Word, Offers (fresh.supplyWords [h]) h [] [])
      ∧ ∀ op ∈ [(0x05 : BitVec 8), 0x07, 0x0C, 0x0F, 0x18, 0x1F, 0x25, 0xFF], op ∉ opcodeRows.map OpcodeRow.number :=
  ⟨fun _ => ⟨rfl, rfl⟩, by decide⟩

theorem witness_ReservedBitsAreRejected :
    ∃ row ∈ opcodeRows, ∃ (s : State) (h : Word) (ops : List Word) (rest : List Input), Offers s h ops rest
      ∧ ops.length = row.operands ∧ h.extractLsb' 24 8 = row.number ∧ h.extractLsb' 0 24 &&& row.reserved ≠ 0 :=
  ⟨⟨0x24, 0xFFFFFE, 2⟩, by decide, fresh.supplyWords [0x24000002, 0, 4], 0x24000002, [0, 4], [], ⟨rfl, rfl⟩,
    by decide, by decide, by decide⟩

theorem witness_DecodedWordsAreTheEncoding :
    ∃ (ws : List Word) (i : Instr) (rest : List Word), decode ws = .command i rest ∧ rest ≠ [] :=
  ⟨[0x0a000000, 1, 0, 0x22000000], .wrctr 1 0, [0x22000000], by decide⟩

theorem witness_StepRunsTheDecodedCommand :
    (∃ (s : State) (i : Instr) (rest : List Input), s.parse = .header ∧ s.input = (encode i).map .word ++ rest ∧ rest ≠ [])
      ∧ ∃ (s : State) (ws : List Word) (i : Instr) (rest : List Input), Inv s ∧ ws ≠ []
          ∧ decode (s.parse.taken ++ ws) = .command i [] ∧ s.input = ws.map .word ++ rest ∧ s.parse ≠ .header :=
  ⟨⟨fresh.supply [.word 0x01000114, .reset], .init .ietf 20, [.reset], by decide⟩,
    ⟨{ fresh with parse := .operands 0x0a000000 [5], input := [.word 6] }, [6], .wrctr 5 6, [],
      ⟨by decide, by decide, by decide, by decide, by decide, by rintro _ _ ⟨⟩; decide⟩, by decide, by decide, rfl, by decide⟩⟩

theorem witness_IncompleteCommandWaits :
    ∃ (s : State) (ws : List Word), s.parse = .header ∧ ws ≠ [] ∧ decode ws = .incomplete ∧ s.input = ws.map .word
      ∧ ∃ (more : List Word) (i : Instr), decode (ws ++ more) = .command i [] :=
  ⟨fresh.supplyWords [0x24000000, 8], [0x24000000, 8], rfl, by decide, by decide, rfl, [4], .produce .xor 8 4, by decide⟩

theorem witness_IdleEngineKeepsAllState : ∃ s : State, s.parse = .header ∧ s.input = [] :=
  ⟨State.reset, rfl, rfl⟩

/-- The last address of DMEM and the first one past it. -/
theorem witness_HostActionsBetweenCommands :
    (∃ (s : State) (a : Word) (v : Byte) (rest : List Input), Memory.wf s.dmem ∧ s.input = .dmemWrite a v :: rest
        ∧ a.toNat < s.dmemSize.val ∧ a = 255)
      ∧ (∃ (s : State) (a : Word) (v : Byte) (rest : List Input), s.input = .dmemWrite a v :: rest
        ∧ ¬ a.toNat < s.dmemSize.val ∧ a = 256)
      ∧ (∃ (s : State) (w : Word) (q : List Word) (rest : List Input), s.input = .takeResponse :: rest ∧ s.respq = w :: q)
      ∧ ∃ (s : State) (rest : List Input), s.input = .reset :: rest ∧ rest ≠ [] :=
  ⟨⟨fresh.supply [.dmemWrite 255 1], 255, 1, [], by decide, rfl, by decide, rfl⟩,
    ⟨fresh.supply [.dmemWrite 256 1], 256, 1, [], rfl, by decide, rfl⟩,
    ⟨{ fresh with respq := [7], input := [.takeResponse] }, 7, [], [], rfl, rfl⟩,
    ⟨fresh.supply [.reset, .takeResponse], [.takeResponse], rfl, by decide⟩⟩

/-- The same while an operand word is awaited (notes/assumptions/6.md). -/
theorem witness_HostActionsBetweenCommands_awaiting :
    ∃ (s : State) (a : Word) (v : Byte) (rest : List Input), Memory.wf s.dmem ∧ s.input = .dmemWrite a v :: rest
      ∧ a.toNat < s.dmemSize.val ∧ s.parse = .operands 0x0a000000 [5] :=
  ⟨{ fresh with parse := .operands 0x0a000000 [5], input := [.dmemWrite 0 1] }, 0, 1, [], by decide, rfl, by decide, rfl⟩

theorem witness_HardwareResetAbandonsTheCommand :
    ∃ (s : State) (rest : List Input), s.input = .reset :: rest ∧ s.parse ≠ .header ∧ s.status.inited = true :=
  ⟨{ engine .djb 20 with parse := .operands 0x0a000000 [5], input := [.reset] }, [], by decide⟩

theorem witness_RecordKeepsTheFirstCode :
    (∃ s : State, s.status.err = false) ∧ ∃ s : State, s.status.err = true ∧ s.status.errcode = 4 :=
  ⟨⟨fresh, rfl⟩, ⟨fresh.record .badRounds, rfl, rfl⟩⟩

/-- Every cause has a command and a state, and a command without a cause exists on both sides of INIT. -/
theorem witness_ExecRejectsExactlyForItsFirstCause :
    rejectCause fresh .gen = some .notInit ∧ rejectCause fresh (.produce .xor 0xFFFFFFFF 2) = some .notInit
      ∧ rejectCause fresh (.init .djb 7) = some .badRounds ∧ rejectCause (engine .ietf 20) (.wrctr 5 1) = some .badOperand
      ∧ rejectCause (engine .djb 20) (.produce .copy 65 192) = some .range
      ∧ rejectCause (engine .djb 20) (.produce .copy 64 192) = none ∧ rejectCause fresh .clear = none := by decide

theorem witness_CommandsAreGatedByInited :
    ∃ (i : Instr) (s : State), s.status.inited = false ∧ i ≠ .nop ∧ (∀ l r, i ≠ .init l r) ∧ i ≠ .clear ∧ i ≠ .rdstat
      ∧ i ≠ .clrerr :=
  ⟨.flush, fresh, rfl, nofun, nofun, nofun, nofun, nofun⟩

theorem witness_ErrorRecordDoesNotChangeExecution : (∃ i : Instr, i ≠ .rdstat) ∧ ∃ i : Instr, i = .rdstat :=
  ⟨⟨.gen, nofun⟩, ⟨.rdstat, rfl⟩⟩

theorem witness_DataValuesAreNeverRejected :
    ∃ (s : State) (a l : Word), s.status.inited = true ∧ s.cfg.layout = .djb ∧ a.toNat + l.toNat ≤ s.dmemSize.val
      ∧ s.S[12] = 0xFFFFFFFF :=
  ⟨{ engine .djb 20 with S := initialWords.set 12 0xFFFFFFFF }, 0, 256, by decide⟩

theorem witness_QuarterRoundIsItsTwelveStatements :
    (∃ a b c d j : Index, j ∉ [a, b, c, d]) ∧ ∃ a b c d : Index, [a, b, c, d].Nodup :=
  ⟨⟨0, 4, 8, 12, 15, by decide⟩, ⟨3, 4, 9, 14, by decide⟩⟩

theorem witness_RoundsAreQuarterRoundsInAnyOrder :
    (∃ qs : List (Index × Index × Index × Index), qs.Perm columnQuadruples ∧ qs ≠ columnQuadruples)
      ∧ ∃ qs : List (Index × Index × Index × Index), qs.Perm diagonalQuadruples ∧ qs ≠ diagonalQuadruples :=
  ⟨⟨columnQuadruples.reverse, List.reverse_perm _, by decide⟩, ⟨diagonalQuadruples.reverse, List.reverse_perm _, by decide⟩⟩

theorem witness_CounterAdvancesByOneAndWraps :
    (∃ j : Index, j ≠ 12 ∧ j ≠ 13) ∧ ∃ S : Words, S[12] ≠ 0xFFFFFFFF := ⟨⟨14, by decide⟩, ⟨rfcWords, by decide⟩⟩

theorem witness_BlockDependsOnWordsAndRoundsOnly :
    ∃ s t : State, s.status.inited = true ∧ t.status.inited = true ∧ s.S = t.S ∧ s.cfg.rounds = t.cfg.rounds
      ∧ s.cfg.layout ≠ t.cfg.layout :=
  ⟨engine .djb 20, engine .ietf 20, rfl, rfl, rfl, rfl, by decide⟩

theorem witness_GenIsItsFiveSubSteps : ∃ s : State, s.status.inited = true := ⟨engine .djb 12, rfl⟩

theorem witness_CounterCountsGeneratedBlocks :
    (∃ (s : State) (k : Nat), s.status.inited = true ∧ 0 < k ∧ s.cfg.layout = .ietf)
      ∧ ∃ j : Index, j.val < 12 ∨ 14 ≤ j.val :=
  ⟨⟨engine .ietf 8, 2, by decide⟩, ⟨11, by decide⟩⟩

/-- The legal round counts and their neighbours. -/
theorem witness_InitConstructsOrRejects :
    (∀ r ∈ [(7 : BitVec 8), 9, 0, 255], r.toNat ∉ [8, 12, 20]) ∧ ∀ r ∈ [(8 : BitVec 8), 12, 20], r.toNat ∈ [8, 12, 20] := by
  decide

theorem witness_WrsAndRdsAccessOneStateWord :
    ∃ (s : State) (i j : Index), s.status.inited = true ∧ j ≠ i := ⟨engine .ietf 20, 0, 15, by decide⟩

theorem witness_WrctrSetsTheCounterByLayout :
    (∃ s : State, s.status.inited = true ∧ s.cfg.layout = .djb)
      ∧ (∃ s : State, s.status.inited = true ∧ s.cfg.layout = .ietf)
      ∧ ∃ (s : State) (hi : Word), s.status.inited = true ∧ s.cfg.layout = .ietf ∧ hi ≠ 0 :=
  ⟨⟨engine .djb 20, rfl, rfl⟩, ⟨engine .ietf 20, rfl, rfl⟩, ⟨engine .ietf 20, 1, by decide⟩⟩

theorem witness_RdctrRespondsTheCounterByLayout :
    (∃ s : State, s.status.inited = true ∧ s.cfg.layout = .djb)
      ∧ ∃ s : State, s.status.inited = true ∧ s.cfg.layout = .ietf :=
  ⟨⟨engine .djb 20, rfl, rfl⟩, ⟨engine .ietf 20, rfl, rfl⟩⟩

theorem witness_LdwCopiesAndFfAddsTheState : ∃ s : State, s.status.inited = true := ⟨rfcEngine, rfl⟩

theorem witness_WrwAndRdwAccessOneWorkingWord :
    ∃ (s : State) (i j : Index), s.status.inited = true ∧ j ≠ i := ⟨engine .ietf 20, 3, 15, by decide⟩

theorem witness_QrRunsOneQuarterRoundOnW :
    ∃ (s : State) (a j : Index), s.status.inited = true ∧ j ≠ a := ⟨engine .ietf 20, 6, 0, by decide⟩

theorem witness_RoundCommandsReplaceW : ∃ s : State, s.status.inited = true := ⟨engine .ietf 8, rfl⟩

theorem witness_SerFillsTheBufferAndAdvAdvances :
    ∃ (s : State) (j : Index), s.status.inited = true ∧ j ≠ 12 ∧ (s.cfg.layout = .djb → j ≠ 13) :=
  ⟨engine .ietf 20, 13, by decide⟩

theorem witness_GenGeneratesOneBlock : ∃ s : State, s.status.inited = true := ⟨rfcEngine, rfl⟩

theorem witness_FlushDiscardsTheBuffer : ∃ s : State, s.status.inited = true ∧ s.pos = 0 :=
  ⟨{ engine .djb 20 with pos := 0 }, rfl, rfl⟩

/-- RANGE at its edges: a sum one past DMEM_SIZE with LEN = 0, and one that would wrap in 32 bits. -/
theorem witness_ProduceRunsItsThreeSteps_range :
    (∃ (s : State) (a l : Word), s.status.inited = true ∧ s.dmemSize.val < a.toNat + l.toNat ∧ l = 0)
      ∧ ∃ (s : State) (a l : Word), s.status.inited = true ∧ s.dmemSize.val < a.toNat + l.toNat ∧ a = 0xFFFFFFFF :=
  ⟨⟨engine .djb 20, 257, 0, by decide⟩, ⟨engine .djb 20, 0xFFFFFFFF, 2, by decide⟩⟩

/-- Step 1 at its edges: LEN equal to what is buffered, up to the end of DMEM, and LEN = 0 with nothing buffered. -/
theorem witness_ProduceRunsItsThreeSteps_step1 :
    (∃ (s : State) (a l : Word), s.status.inited = true ∧ a.toNat + l.toNat ≤ s.dmemSize.val ∧ l.toNat = 64 - s.pos.val
        ∧ a.toNat + l.toNat = s.dmemSize.val)
      ∧ ∃ (s : State) (a l : Word), s.status.inited = true ∧ a.toNat + l.toNat ≤ s.dmemSize.val
        ∧ l.toNat ≤ 64 - s.pos.val ∧ s.pos = 64 :=
  ⟨⟨{ engine .djb 20 with pos := 60 }, 252, 4, by decide⟩, ⟨engine .djb 20, 256, 0, by decide⟩⟩

/-- Step 1 and a rest of one byte, with 4, 0 and 64 bytes buffered. -/
theorem witness_ProduceRunsItsThreeSteps_rest :
    ∀ p ∈ [((60 : Fin 65), (4 : Word)), (64, 0), (0, 64)],
      ∃ (s : State) (a l : Word), s.status.inited = true ∧ s.pos = p.1 ∧ a.toNat + l.toNat ≤ s.dmemSize.val
        ∧ p.2.toNat = 64 - s.pos.val ∧ p.2.toNat < l.toNat := by
  simp only [List.mem_cons, List.not_mem_nil, or_false]
  rintro p (rfl | rfl | rfl)
  · exact ⟨{ engine .djb 20 with pos := 60 }, 0, 5, by decide⟩
  · exact ⟨engine .djb 20, 0, 1, by decide⟩
  · exact ⟨{ engine .djb 20 with pos := 0 }, 0, 65, by decide⟩

/-- Steps 2 and 3 at their edges: 64 bytes up to the end of DMEM, 1 byte and 63. -/
theorem witness_ProduceRunsItsThreeSteps_blocks :
    ∀ l ∈ [(64 : Word), 1, 63], ∃ (s : State) (a : Word), s.status.inited = true
      ∧ a.toNat + l.toNat ≤ s.dmemSize.val ∧ s.pos = 64 ∧ 0 < l.toNat := by
  simp only [List.mem_cons, List.not_mem_nil, or_false]
  rintro l (rfl | rfl | rfl) <;> exact ⟨engine .ietf 20, 192, by decide⟩

theorem witness_CombineJoinsByteByByte :
    ∃ (m : Memory) (a b i : Nat) (ks : List Byte), Memory.wf m ∧ i < ks.length ∧ (b < a ∨ a + ks.length ≤ b) :=
  ⟨[(4, 2)], 4, 6, 1, [1, 2], by decide⟩

theorem witness_ProduceChangesOnlyItsRange :
    (∃ (s : State) (a l : Word), Memory.wf s.dmem ∧ s.status.inited = true ∧ a.toNat + l.toNat ≤ s.dmemSize.val ∧ 0 < l.toNat)
      ∧ ∃ (s : State) (a l : Word), Memory.wf s.dmem ∧ s.status.inited = true ∧ ¬ a.toNat + l.toNat ≤ s.dmemSize.val :=
  ⟨⟨{ engine .djb 8 with dmem := [(3, 9)] }, 250, 6, by decide⟩, ⟨{ engine .djb 8 with dmem := [(3, 9)] }, 250, 7, by decide⟩⟩

theorem witness_ProducesFollowTheKeystream :
    ∃ (s : State) (reqs : List ProduceRequest), s.status.inited = true ∧ s.pos = 64
      ∧ (∀ r ∈ reqs, r.2.1.toNat + r.2.2.toNat ≤ s.dmemSize.val) ∧ bytesAsked reqs % 64 ≠ 0 ∧ 64 < bytesAsked reqs :=
  ⟨engine .ietf 20, [(.xor, 0, 50), (.copy, 192, 64)], by decide⟩

theorem witness_ChunkingDoesNotMatter :
    ∃ (s : State) (a total : Word) (lens : List Word), s.status.inited = true
      ∧ total.toNat = (lens.map BitVec.toNat).sum ∧ a.toNat + total.toNat ≤ s.dmemSize.val ∧ 1 < lens.length :=
  ⟨engine .djb 20, 0, 200, [1, 62, 2, 64, 71], by decide⟩

theorem witness_XorTwiceRestoresAndCopyIsXorOverZero :
    ∃ (s : State) (d : Memory) (a l : Word), Memory.wf s.dmem ∧ Memory.wf d ∧ s.status.inited = true
      ∧ a.toNat + l.toNat ≤ s.dmemSize.val ∧ ∀ b, a.toNat ≤ b → b < a.toNat + l.toNat → Memory.read d b = 0 :=
  ⟨{ engine .djb 8 with dmem := [(3, 9)] }, [], 0, 70, by decide, by decide, rfl, by decide, fun _ _ _ => rfl⟩

theorem witness_StaleBufferIsNeverHandedOut : ∃ s t : State, SameButStaleBuffer s t ∧ s ≠ t :=
  ⟨engine .djb 20, { engine .djb 20 with B := Vector.replicate 64 1 }, ⟨rfl, by decide⟩, by decide⟩

theorem witness_ProduceAdvancesTheCounterByItsBlocks :
    ∃ (s : State) (a l : Word), s.status.inited = true ∧ a.toNat + l.toNat ≤ s.dmemSize.val ∧ 64 - s.pos.val < l.toNat :=
  ⟨{ engine .djb 20 with pos := 63 }, 0, 2, by decide⟩

theorem witness_BufferedBytesSurviveAccessorWrites :
    ∃ (s t : State) (a l : Word), s.status.inited = true ∧ exec (.wrctr 0 0) s = .next t
      ∧ a.toNat + l.toNat ≤ s.dmemSize.val ∧ l.toNat ≤ 64 - s.pos.val ∧ 0 < l.toNat :=
  ⟨{ engine .djb 20 with pos := 10 }, _, 100, 54, rfl, rfl, by decide, by decide, by decide⟩

theorem witness_SeekPositionsAtTheStartOfABlock :
    ∃ (s : State) (v : BitVec 64) (a l : Word), s.status.inited = true ∧ v.toNat < counterModulus s.cfg.layout
      ∧ a.toNat + l.toNat ≤ s.dmemSize.val ∧ l.toNat ≤ 64 ∧ v = 0xFFFFFFFF :=
  ⟨{ engine .ietf 20 with pos := 10 }, 0xFFFFFFFF, 192, 64, by decide⟩

theorem witness_WorkingArrayDoesNotReachTheKeystream : ∃ s : State, s.status.inited = true := ⟨engine .djb 20, rfl⟩

theorem witness_ConstructionSequenceSetsTheState :
    (∃ r : BitVec 8, r.toNat ∈ [8, 12, 20]) ∧ ∃ v : BitVec 64, v.toNat < 2 ^ 32 ∧ v = 0xFFFFFFFF :=
  ⟨⟨20, by decide⟩, ⟨0xFFFFFFFF, by decide⟩⟩

theorem witness_CanonicalMemoriesAreEqualByTheirBytes :
    ∃ m d : Memory, Memory.wf m ∧ Memory.wf d ∧ (∀ a, Memory.read m a = Memory.read d a) ∧ m ≠ [] :=
  ⟨[(3, 9)], [(3, 9)], by decide, by decide, fun _ => rfl, by decide⟩

theorem witness_EveryStepKeepsTheInvariant : ∃ s t : State, Inv s ∧ step s = .next t ∧ s ≠ t :=
  ⟨fresh.supplyWords [0x22000000], State.record fresh .notInit,
    ⟨by decide, by decide, by decide, by decide, by decide, by rintro _ _ ⟨⟩⟩, rfl, by decide⟩

theorem witness_OnlyInitWritesTheConfiguration :
    (∃ (i : Instr) (s t : State), (∀ l r, i ≠ .init l r) ∧ exec i s = .next t ∧ s.status.inited = true)
      ∧ (∃ s t : State, exec (.init .djb 8) s = .next t ∧ s.status.inited = true)
      ∧ ∃ s t : State, step s = .next t ∧ t.cfg ≠ s.cfg :=
  ⟨⟨.nop, engine .djb 8, _, nofun, rfl, rfl⟩, ⟨engine .ietf 20, _, rfl, rfl⟩,
    ⟨fresh.supplyWords [0x01000114], construct .ietf 20 fresh, rfl, by decide⟩⟩

theorem witness_CommandsWriteOnlyTheirState : ∃ (i : Instr) (s t : State), exec i s = .next t ∧ s ≠ t :=
  ⟨.clear, engine .djb 20, _, rfl, by decide⟩

theorem witness_UnspecifiedResetValuesAreNeverObserved :
    (∃ s t : State, SameButHiddenReset s t ∧ s ≠ t) ∧ ∃ s t : State, SameButHiddenReset s t ∧ s.status.inited = true :=
  ⟨⟨fresh, { fresh with S := initialWords, pos := 7 }, ⟨rfl, by decide⟩, by decide⟩,
    ⟨engine .djb 20, engine .djb 20, ⟨rfl, fun _ => rfl⟩, rfl⟩⟩

theorem witness_ByteConversionsAreLittleEndian :
    (∃ (ws : List Word) (i : Nat), i < ws.length ∧ i + 1 = ws.length ∧ 0 < i)
      ∧ ∃ (bs : List Byte) (ws : List Word), bytesToWords bs = some ws ∧ 1 < ws.length :=
  ⟨⟨[1, 2], 1, by decide⟩, ⟨[0, 0, 0, 9, 0, 0, 0, 0x4a], [0x09000000, 0x4a000000], by decide⟩⟩

end Sys2Proof.Tests
end

section
/-! PROOFS. The encoding family (30_encoding.md R73, R82, R83): the opcode map against the decoder, what the decoder
makes of a header that is illegal or has a reserved bit set, and the step that rejects it. -/

namespace Sys2Proof

/-! ### The opcode map and the decoder's opcodes -/

theorem Opcode.mem_all (op : Opcode) : op ∈ Opcode.all := by
  cases op <;> decide

/-- The row of the opcode map (R81) that an opcode's own columns make. -/
def Opcode.row (op : Opcode) : OpcodeRow :=
  ⟨op.number, op.format.reservedMask, op.operandCount⟩

/-- The opcode map of the statements lists the decoder's opcodes and nothing else. -/
theorem opcodeRows_eq_map_row : opcodeRows = Opcode.all.map Opcode.row := by
  decide

theorem number_mem_opcodeRows (op : Opcode) : op.number ∈ opcodeRows.map OpcodeRow.number := by
  rw [opcodeRows_eq_map_row, List.map_map]
  exact List.mem_map_of_mem (f := OpcodeRow.number ∘ Opcode.row) op.mem_all

/-- A number that no opcode has is unassigned. -/
theorem ofNumber_eq_none_iff (n : BitVec 8) : Opcode.ofNumber n = none ↔ ∀ op : Opcode, op.number ≠ n := by
  simp [Opcode.ofNumber, Opcode.mem_all]

theorem ofNumber_eq_none_of_not_mem_opcodeRows (n : BitVec 8) (hn : n ∉ opcodeRows.map OpcodeRow.number) :
    Opcode.ofNumber n = none :=
  (ofNumber_eq_none_iff n).mpr fun op ho => hn (ho ▸ number_mem_opcodeRows op)

/-! ### The operand count of a header (R73) -/

theorem operandCountOf_of_opcode (h : Word) (op : Opcode) (ho : opField h = op.number) :
    operandCountOf h = op.operandCount := by
  rw [operandCountOf, ho, Laws.HeaderSelects.ofNumber_number]

theorem operandCountOf_of_unassigned (h : Word) (hn : Opcode.ofNumber (opField h) = none) :
    operandCountOf h = 0 := by
  rw [operandCountOf, hn]

/-- R73's three classes of numbers give each opcode its count. -/
theorem Opcode.operandCount_eq_of_number (op : Opcode) : op.operandCount =
    if op.number ∈ [(0x08 : BitVec 8), 0x11] then 1 else if op.number ∈ [(0x0A : BitVec 8), 0x24] then 2 else 0 := by
  cases op <;> decide

/-- R73 over every header: the opcodes with operands are exactly those of its two lists. -/
theorem operandCountOf_eq_of_opField (h : Word) : operandCountOf h =
    if opField h ∈ [(0x08 : BitVec 8), 0x11] then 1 else if opField h ∈ [(0x0A : BitVec 8), 0x24] then 2 else 0 := by
  cases hn : Opcode.ofNumber (opField h) with
  | some op =>
    have ho : op.number = opField h := ofNumber_eq_some _ _ hn
    rw [operandCountOf_of_opcode h op ho.symm, op.operandCount_eq_of_number, ho]
  | none =>
    have hne := (ofNumber_eq_none_iff _).mp hn
    have h1 : opField h ∉ [(0x08 : BitVec 8), 0x11] := by
      simpa using ⟨(hne .wrs).symm, (hne .wrw).symm⟩
    have h2 : opField h ∉ [(0x0A : BitVec 8), 0x24] := by
      simpa using ⟨(hne .wrctr).symm, (hne .produce).symm⟩
    rw [operandCountOf_of_unassigned h hn, if_neg h1, if_neg h2]

/-! ### Headers that are rejected -/

theorem decodeWhole_of_unassigned (h : Word) (ops rest : List Word) (hn : Opcode.ofNumber (opField h) = none) :
    decodeWhole h ops rest = .rejected .illegalOp rest := by
  rw [decodeWhole, hn]

theorem decodeWhole_of_reserved (h : Word) (op : Opcode) (ops rest : List Word) (ho : opField h = op.number)
    (hr : argsField h &&& op.format.reservedMask ≠ 0) : decodeWhole h ops rest = .rejected .reserved rest := by
  simp only [decodeWhole, ho, Laws.HeaderSelects.ofNumber_number, if_neg hr]

end Sys2Proof

namespace Sys2Proof.Machine

/-- A whole command that the decoder rejects is taken in one step, which only records the code. -/
theorem step_of_rejected (s : State) (h : Word) (ops : List Word) (rest : List Input) (c : RejectCode)
    (hs : Offers s h ops rest) (hl : ops.length = operandCountOf h) (hd : decodeWhole h ops [] = .rejected c []) :
    step s = .next (State.record { s with parse := .header, input := rest } c) := by
  obtain ⟨hp, hi⟩ := hs
  have hparsed : parseInput s.parse s.input = .rejected c rest := by
    rw [hi, ← List.map_cons, parseInput_whole s.parse h ops (h :: ops) rest (List.cons_ne_nil _ _) hl (by simp [hp]), hd]
  rw [step_of_word s h _ hi, hparsed, runParsed]

/-- R83 for each opcode of the decoder. -/
theorem reservedBitsRejected_of_opcode (op : Opcode) :
    ReservedBitsRejected op.number op.format.reservedMask op.operandCount := by
  intro s h ops rest hs hl ho hr
  have hl' : ops.length = operandCountOf h := by rw [hl, operandCountOf_of_opcode h op ho]
  have hp : s.parse = .header := hs.1
  rw [step_of_rejected s h ops rest .reserved hs hl' (decodeWhole_of_reserved h op ops [] ho hr), ← hp]

end Sys2Proof.Machine

namespace Sys2Proof.Machine.Encoding

/-- Settles O2: the count by the opcode's number, then the decoder's laws for too few and for enough words. -/
theorem operandCountIsAFunctionOfOpcode : Obligations.OperandCountIsAFunctionOfOpcode := by
  refine ⟨operandCountOf_eq_of_opField, fun h ops => (decode_cons_incomplete h ops).mpr, fun h ops rest hl => ?_⟩
  rw [List.cons_append, decode_whole h ops rest hl]
  exact decodeWhole_rest h ops rest

/-- Settles O3: an unassigned header is a whole command of one word, which the decoder rejects. -/
theorem unassignedOpcodesAreIllegal : Obligations.UnassignedOpcodesAreIllegal := by
  intro s h rest hs hn
  have hnone : Opcode.ofNumber (opField h) = none := ofNumber_eq_none_of_not_mem_opcodeRows _ hn
  exact step_of_rejected s h [] rest .illegalOp hs (operandCountOf_of_unassigned h hnone).symm
    (decodeWhole_of_unassigned h [] [] hnone)

/-- Settles O4: each row of the opcode map is the row of an opcode, and R83 holds of every opcode. -/
theorem reservedBitsAreRejected : Obligations.ReservedBitsAreRejected := by
  intro row hrow
  rw [opcodeRows_eq_map_row] at hrow
  obtain ⟨op, -, rfl⟩ := List.mem_map.mp hrow
  exact reservedBitsRejected_of_opcode op

end Sys2Proof.Machine.Encoding
end

section
/-! PROOFS. The permutation family (40_permutation.md R100 to R102, R104 to R111): the statements of the quarter round,
what it does to single words, quarter rounds on disjoint quadruples, and the commands on the working array. -/

namespace Sys2Proof

/-! ### Statements of the quarter round (R100) -/

/-- The word a statement writes. -/
def MixStatement.target : MixStatement → Index
  | .add p _ => p
  | .xor p _ => p
  | .rotl p _ => p

/-- The value a statement writes there. -/
def MixStatement.value (X : Words) : MixStatement → Word
  | .add p q => X[p] + X[q]
  | .xor p q => X[p] ^^^ X[q]
  | .rotl p n => X[p].rotateLeft n

/-- The words a statement reads or writes. -/
def MixStatement.indices : MixStatement → List Index
  | .add p q => [p, q]
  | .xor p q => [p, q]
  | .rotl p _ => [p]

theorem MixStatement.run_eq_set (X : Words) (m : MixStatement) : m.run X = X.set m.target (m.value X) := by
  cases m <;> rfl

theorem MixStatement.target_mem_indices (m : MixStatement) : m.target ∈ m.indices := by
  cases m <;> simp [target, indices]

/-- A write of a word that a statement does not use does not change the value it writes. -/
theorem MixStatement.value_set (X : Words) (m : MixStatement) (j : Index) (v : Word) (hj : j ∉ m.indices) :
    m.value (X.set j v) = m.value X := by
  have hread : ∀ i ∈ m.indices, (X.set j v)[i] = X[i] := fun i hi =>
    (Machine.words_set X j i v).trans (if_neg fun h : i = j => hj (h ▸ hi))
  cases m with
  | add p q => exact congrArg₂ (· + ·) (hread p (by simp [indices])) (hread q (by simp [indices]))
  | xor p q => exact congrArg₂ (· ^^^ ·) (hread p (by simp [indices])) (hread q (by simp [indices]))
  | rotl p n => exact congrArg (·.rotateLeft n) (hread p (by simp [indices]))

/-- Statements that use no common word can be run in either order. -/
theorem MixStatement.run_commute (m k : MixStatement) (h : m.indices.Disjoint k.indices) :
    Function.Commute (MixStatement.run · m) (MixStatement.run · k) := by
  intro X
  have hm : k.target ∉ m.indices := fun hi => h hi k.target_mem_indices
  have hk : m.target ∉ k.indices := h m.target_mem_indices
  have hne : m.target.val ≠ k.target.val := fun he => hk (Fin.ext he ▸ k.target_mem_indices)
  simp only [run_eq_set, value_set X m _ _ hm, value_set X k _ _ hk]
  exact (Vector.set_comm _ _ hne).symm

/-- What commutes with every statement of a list commutes with running the list. -/
theorem commute_foldl_run (f : Words → Words) (ms : List MixStatement)
    (h : ∀ m ∈ ms, Function.Commute f (MixStatement.run · m)) :
    Function.Commute f (fun X => ms.foldl MixStatement.run X) := by
  induction ms with
  | nil => exact Function.Commute.id_right
  | cons m ms ih =>
    have hm : Function.Commute f (MixStatement.run · m) := h m List.mem_cons_self
    exact (ih fun k hk => h k (List.mem_cons_of_mem m hk)).comp_right hm

/-- The twelve statements use the four words of the quadruple only. -/
theorem indices_subset_of_mem_quarterRoundStatements (a b c d : Index) :
    ∀ m ∈ quarterRoundStatements a b c d, m.indices ⊆ [a, b, c, d] := by
  simp [quarterRoundStatements, MixStatement.indices]

end Sys2Proof

namespace Sys2Proof.Machine

/-! ### The quarter round (R100) -/

/-- A statement group is its three statements, whatever indices repeat. -/
theorem mixStep_eq_statements (X : Words) (p q r : Index) (n : Nat) (hn : n < 32) :
    mixStep X p q r n = [.add p q, .xor r p, .rotl r n].foldl MixStatement.run X := by
  simp [mixStep, MixStatement.run, rotl32_eq_rotateLeft _ n hn]

theorem qrF_eq_statements (X : Words) (a b c d : Index) :
    qrF X a b c d = (quarterRoundStatements a b c d).foldl MixStatement.run X := by
  simp only [qrF, mixStep_eq_statements _ _ _ _ 16 (by decide), mixStep_eq_statements _ _ _ _ 12 (by decide),
    mixStep_eq_statements _ _ _ _ 8 (by decide), mixStep_eq_statements _ _ _ _ 7 (by decide)]
  rfl

/-- The sum a statement group writes, where the word it rotates is another one. -/
theorem mixStep_sum (X : Words) (p q r : Index) (n : Nat) (h : p ≠ r) : (mixStep X p q r n)[p] = X[p] + X[q] := by
  simp only [mixStep]
  rw [words_set, if_neg h, words_set, if_neg h, words_set, if_pos rfl]

/-- The word a statement group rotates, where it is not the sum. -/
theorem mixStep_rotated (X : Words) (p q r : Index) (n : Nat) (hn : n < 32) (h : p ≠ r) :
    (mixStep X p q r n)[r] = (X[r] ^^^ (X[p] + X[q])).rotateLeft n := by
  simp only [mixStep, words_set, if_true, if_neg h.symm, rotl32_eq_rotateLeft _ n hn]

/-- Where the word it rotates is the sum itself, a statement group leaves 0 there (R104). -/
theorem mixStep_rotated_self (X : Words) (p q : Index) (n : Nat) : (mixStep X p q p n)[p] = 0 := by
  simp [mixStep, rotl32]

/-- Half a quarter round: two statement groups, which rotate by `m` and by `n`. -/
def halfQrF (X : Words) (a b c d : Index) (m n : Nat) : Words :=
  mixStep (mixStep X a b d m) c d b n

theorem qrF_eq_halves (X : Words) (a b c d : Index) :
    qrF X a b c d = halfQrF (halfQrF X a b c d 16 12) a b c d 8 7 := rfl

/-- On distinct indices each word of a half is given by the words written before it. -/
theorem halfQrF_words (X : Words) (a b c d : Index) (m n : Nat) (hm : m < 32) (hn : n < 32)
    (hd : [a, b, c, d].Nodup) :
    (halfQrF X a b c d m n)[a] = X[a] + X[b]
      ∧ (halfQrF X a b c d m n)[d] = (X[d] ^^^ (halfQrF X a b c d m n)[a]).rotateLeft m
      ∧ (halfQrF X a b c d m n)[c] = X[c] + (halfQrF X a b c d m n)[d]
      ∧ (halfQrF X a b c d m n)[b] = (X[b] ^^^ (halfQrF X a b c d m n)[c]).rotateLeft n := by
  simp only [List.nodup_cons, List.mem_cons, List.not_mem_nil, or_false, not_or] at hd
  obtain ⟨⟨hab, hac, had⟩, ⟨hbc, hbd⟩, hcd, -⟩ := hd
  simp only [halfQrF, mixStep_of_ne _ c d b a n hac hab, mixStep_of_ne _ c d b d n (Ne.symm hcd) (Ne.symm hbd),
    mixStep_sum _ c d b n (Ne.symm hbc), mixStep_rotated _ c d b n hn (Ne.symm hbc),
    mixStep_sum X a b d m had, mixStep_rotated X a b d m hm had,
    mixStep_of_ne X a b d b m (Ne.symm hab) hbd, mixStep_of_ne X a b d c m (Ne.symm hac) hcd, and_self]

theorem qrF_of_not_mem (X : Words) (a b c d j : Index) (hj : j ∉ [a, b, c, d]) : (qrF X a b c d)[j] = X[j] := by
  simp only [List.mem_cons, List.not_mem_nil, or_false, not_or] at hj
  obtain ⟨ha, hb, hc, hd⟩ := hj
  simp only [qrF, mixStep_of_ne _ a b d j _ ha hd, mixStep_of_ne _ c d b j _ hc hb]

/-- With one index four times the last statement group leaves 0 in that word (R104). -/
theorem qrF_self (X : Words) (a : Index) : (qrF X a a a a)[a] = 0 :=
  mixStep_rotated_self _ a a 7

/-- Quarter rounds on disjoint quadruples can be run in either order. -/
theorem qrF_commute (a b c d a' b' c' d' : Index) (h : [a, b, c, d].Disjoint [a', b', c', d']) :
    Function.Commute (qrF · a b c d) (qrF · a' b' c' d') := by
  simp only [qrF_eq_statements]
  refine commute_foldl_run _ _ fun k hk => (commute_foldl_run _ _ fun m hm => ?_).symm
  have hm' := indices_subset_of_mem_quarterRoundStatements a b c d m hm
  have hk' := indices_subset_of_mem_quarterRoundStatements a' b' c' d' k hk
  exact MixStatement.run_commute k m fun i hik him => h (hm' him) (hk' hik)

/-! ### Rounds (R101, R102) -/

theorem quarterRounds_column (X : Words) : quarterRounds columnQuadruples X = colrF X := rfl

theorem quarterRounds_diagonal (X : Words) : quarterRounds diagonalQuadruples X = diagrF X := rfl

/-- The four words of a quadruple. -/
def quadrupleIndices (q : Index × Index × Index × Index) : List Index :=
  [q.1, q.2.1, q.2.2.1, q.2.2.2]

/-- Every two quadruples of the list are equal or have no word in common. -/
abbrev DisjointQuadruples (qs : List (Index × Index × Index × Index)) : Prop :=
  ∀ q ∈ qs, ∀ r ∈ qs, q = r ∨ ∀ i ∈ quadrupleIndices q, i ∉ quadrupleIndices r

/-- Quarter rounds on disjoint quadruples give the same in every order. -/
theorem quarterRounds_of_perm (qs rs : List (Index × Index × Index × Index)) (X : Words) (hp : qs.Perm rs)
    (h : DisjointQuadruples rs) : quarterRounds qs X = quarterRounds rs X := by
  refine (List.Perm.foldl_eq' hp.symm (fun q hq r hr Y => ?_) X).symm
  obtain rfl | hd := h q hq r hr
  · rfl
  · exact (qrF_commute _ _ _ _ _ _ _ _ (List.disjoint_left.mpr hd) Y).symm

theorem columnQuadruples_disjoint : DisjointQuadruples columnQuadruples := by
  decide

theorem diagonalQuadruples_disjoint : DisjointQuadruples diagonalQuadruples := by
  decide

/-- Sum, XOR and rotation of zeros are zero (R105). -/
theorem mixStep_zero (p q r : Index) (n : Nat) :
    mixStep (Vector.replicate 16 0) p q r n = Vector.replicate 16 0 := by
  simp [mixStep, rotl32]

theorem quarterRounds_zero (qs : List (Index × Index × Index × Index)) :
    quarterRounds qs (Vector.replicate 16 0) = Vector.replicate 16 0 := by
  induction qs with
  | nil => rfl
  | cons q qs ih =>
    have hq : qrF (Vector.replicate 16 0) q.1 q.2.1 q.2.2.1 q.2.2.2 = Vector.replicate 16 0 := by
      simp only [qrF, mixStep_zero]
    rw [quarterRounds, List.foldl_cons, hq]
    exact ih

/-! ### Every command: its spelling (R71, R75, R76) and its gate (R217) -/

theorem spelledAs (i : Instr) : SpelledAs i i.opcode.number (encodeArgs i).toNat (encodeOperands i) :=
  ⟨toNat_append_add _ _, rfl⟩

theorem argsFI_toNat (i : Index) : (argsFI i).toNat = i.val := by
  simp only [argsFI, toNat_append_add, BitVec.toNat_ofFin, BitVec.toNat_ofNat]
  omega

theorem argsFQ_toNat (a b c d : Index) :
    (argsFQ a b c d).toNat = a.val * 4096 + b.val * 256 + c.val * 16 + d.val := by
  simp only [argsFQ, toNat_append_add, BitVec.toNat_ofFin, BitVec.toNat_ofNat]
  omega

/-- Each command that needs INITED is one application of the gate. -/
theorem gatedByInited (i : Instr) (hi : needsInit i = true) : GatedByInited i := by
  intro s h
  cases i <;> simp only [needsInit, Bool.false_eq_true] at hi <;> exact whenInited_of_not_inited s _ h

end Sys2Proof.Machine

namespace Sys2Proof.Machine.Permutation

/-- Settles O18: the four statement groups are the twelve statements, each changes its own words only, and on distinct
indices each word of a group has its closed form. -/
theorem quarterRoundIsItsTwelveStatements : Obligations.QuarterRoundIsItsTwelveStatements := by
  refine ⟨qrF_eq_statements, qrF_of_not_mem, fun X a b c d hn => ?_⟩
  obtain ⟨ha1, hd1, hc1, hb1⟩ := halfQrF_words X a b c d 16 12 (by decide) (by decide) hn
  obtain ⟨ha2, hd2, hc2, hb2⟩ := halfQrF_words (halfQrF X a b c d 16 12) a b c d 8 7 (by decide) (by decide) hn
  simp only [qrF_eq_halves, ha1, hb1, hc1, hd1, ha2, hb2, hc2, hd2, and_self]

/-- Settles O19: each round is the quarter rounds on its own list of quadruples, which are disjoint. -/
theorem roundsAreQuarterRoundsInAnyOrder : Obligations.RoundsAreQuarterRoundsInAnyOrder := by
  refine fun X qs => ⟨fun hp => ?_, fun hp => ?_⟩
  · rw [← quarterRounds_column]
    exact quarterRounds_of_perm qs _ X hp columnQuadruples_disjoint
  · rw [← quarterRounds_diagonal]
    exact quarterRounds_of_perm qs _ X hp diagonalQuadruples_disjoint

/-- Settles O35: QR is the gated quarter round on W, and the quarter round is its statements. -/
theorem qrRunsOneQuarterRoundOnW : Obligations.QrRunsOneQuarterRoundOnW := by
  refine ⟨fun a b c d => ⟨argsFQ_toNat a b c d ▸ spelledAs (.qr a b c d), gatedByInited _ rfl⟩,
    reservedBitsRejected_of_opcode .qr, fun s a b c d h => ?_, fun s a h => ?_⟩
  · rw [← qrF_eq_statements]
    exact whenInited_of_inited s _ h
  · exact ⟨_, whenInited_of_inited s _ h, qrF_self s.W a, fun j hj => qrF_of_not_mem s.W a a a a j (by simpa using hj)⟩

/-- Settles O33: LDW and FF are gated writes of the whole of W. -/
theorem ldwCopiesAndFfAddsTheState : Obligations.LdwCopiesAndFfAddsTheState :=
  ⟨⟨spelledAs .ldw, reservedBitsRejected_of_opcode .ldw, gatedByInited .ldw rfl⟩,
    ⟨spelledAs .ff, reservedBitsRejected_of_opcode .ff, gatedByInited .ff rfl⟩,
    fun s h => whenInited_of_inited s _ h,
    fun s h => ⟨_, whenInited_of_inited s _ h, feedForward_get s.W s.S, rfl⟩⟩

/-- Settles O34: WRW is the gated write of one word of W, RDW the gated response of one. -/
theorem wrwAndRdwAccessOneWorkingWord : Obligations.WrwAndRdwAccessOneWorkingWord := by
  refine ⟨fun i v => ⟨argsFI_toNat i ▸ spelledAs (.wrw i v), gatedByInited _ rfl⟩,
    reservedBitsRejected_of_opcode .wrw,
    fun i => ⟨argsFI_toNat i ▸ spelledAs (.rdw i), gatedByInited _ rfl⟩,
    reservedBitsRejected_of_opcode .rdw, fun s i v h => ?_, fun s i h => whenInited_of_inited s _ h⟩
  exact ⟨_, whenInited_of_inited s _ h, (words_set s.W i i v).trans (if_pos rfl),
    fun j hj => (words_set s.W i j v).trans (if_neg hj), rfl⟩

/-- Settles O36: COLR, DIAGR and PERM are gated writes of W, and quarter rounds of zeros are zeros. -/
theorem roundCommandsReplaceW : Obligations.RoundCommandsReplaceW := by
  refine ⟨⟨spelledAs .colr, reservedBitsRejected_of_opcode .colr, gatedByInited .colr rfl⟩,
    ⟨spelledAs .diagr, reservedBitsRejected_of_opcode .diagr, gatedByInited .diagr rfl⟩,
    ⟨spelledAs .perm, reservedBitsRejected_of_opcode .perm, gatedByInited .perm rfl⟩,
    fun s h => ?_, quarterRounds_zero _, quarterRounds_zero _⟩
  rw [quarterRounds_column, quarterRounds_diagonal]
  exact ⟨whenInited_of_inited s _ h, whenInited_of_inited s _ h, whenInited_of_inited s _ h⟩

end Sys2Proof.Machine.Permutation
end

section
/-! PROOFS. The block core family (41_block_core.md R130 to R136, R139): the bytes of the serialization, the counter
that an advance leaves, and the commands SER, ADV and GEN. -/

namespace Sys2Proof.Machine

/-! ### The serialization (R132) -/

/-- Byte 4i + j lies in word i, at place j. -/
theorem serF_word_byte (X : Words) (i : Fin 16) (j : Fin 4) :
    (serF X)[4 * i.val + j.val]'(by omega) = X[i].extractLsb' (8 * j.val) 8 := by
  have hword : (4 * i.val + j.val) / 4 = i.val := by omega
  have hplace : (4 * i.val + j.val) % 4 = j.val := by omega
  refine (serF_get X ⟨4 * i.val + j.val, by omega⟩).trans ?_
  simp only [serByte, hword, hplace, Fin.getElem_fin]

/-! ### The counter advance (R130, R131) -/

/-- A word wraps to 0 only from its largest value. -/
theorem add_one_eq_zero_iff (w : Word) : w + 1 = 0 ↔ w = 0xFFFFFFFF := by
  bv_omega

theorem advDjb_high_of_not_wrap (S : Words) (h : S[12] ≠ 0xFFFFFFFF) : (advDjb S)[13] = S[13] := by
  rw [advDjb_high, if_neg (mt (add_one_eq_zero_iff _).mp h)]

/-- The two counter words of DJB layout, read as one number, go up by one modulo 2^64. -/
theorem advDjb_counter (S : Words) :
    (advDjb S)[13].toNat * 2 ^ 32 + (advDjb S)[12].toNat
      = (S[13].toNat * 2 ^ 32 + S[12].toNat + 1) % 2 ^ 64 := by
  rw [advDjb_high, advDjb_low]
  split
  next hwrap =>
    have hlow : S[12] = 0xFFFFFFFF := (add_one_eq_zero_iff _).mp hwrap
    bv_omega
  next hwrap =>
    bv_omega

/-- An advance of the state words takes the layout's counter to the next value of its width. -/
theorem counterOf_setS_advF (s : State) :
    counterOf (s.setS (advF s.cfg.layout s.S)) = (counterOf s + 1) % counterModulus s.cfg.layout := by
  cases hl : s.cfg.layout with
  | djb =>
    simp only [counterOf, State.setS_cfg, State.setS_S, hl]
    exact advDjb_counter s.S
  | ietf =>
    simp only [counterOf, State.setS_cfg, State.setS_S, hl]
    exact (congrArg BitVec.toNat (advIetf_low s.S)).trans (BitVec.toNat_add _ _)

/-! ### GEN and its sub-steps (R136, R139) -/

/-- The first four sub-steps build the block of the state words in W and serialize it, and only the last writes S: so
FF still adds the words that LDW copied. -/
theorem runCommands_blockSubSteps (s : State) (h : s.status.inited = true) :
    runCommands blockSubSteps s = .next (refill s 0) :=
  calc runCommands [.ldw, .perm, .ff, .ser, .adv] s
    _ = runCommands [.perm, .ff, .ser, .adv] (s.setW s.S) :=
      runCommands_cons .ldw _ s _ (whenInited_of_inited s _ h)
    _ = runCommands [.ff, .ser, .adv] (s.setW (permF s.S s.cfg.rounds.toNat)) :=
      runCommands_cons .perm _ _ _ (whenInited_of_inited _ _ h)
    _ = runCommands [.ser, .adv] (s.setW (blockWords s.S s.cfg.rounds.toNat)) :=
      runCommands_cons .ff _ _ _ (whenInited_of_inited _ _ h)
    _ = runCommands [.adv] ((s.setW (blockWords s.S s.cfg.rounds.toNat)).setBuffer (blockFn s).1 0) :=
      runCommands_cons .ser _ _ _ (whenInited_of_inited _ _ h)
    _ = .next (refill s 0) :=
      runCommands_cons .adv _ _ _ (whenInited_of_inited _ _ h)

end Sys2Proof.Machine

namespace Sys2Proof.Machine.BlockCore

/-- Settles O21: byte 4i + j is byte j of word i, by the division that the serializer makes. -/
theorem serializationIsLittleEndianInWordOrder : Obligations.SerializationIsLittleEndianInWordOrder :=
  serF_word_byte

/-- Settles O22: in each layout the counter words as the advance writes them, and its frame. -/
theorem counterAdvancesByOneAndWraps : Obligations.CounterAdvancesByOneAndWraps := fun S =>
  ⟨advIetf_low S, advIetf_of_ne S, advDjb_low S, advDjb_counter S, advDjb_of_ne S, advDjb_high_of_not_wrap S⟩

/-- Settles O24: both sides answer the state with a block of `s` in the buffer. -/
theorem genIsItsFiveSubSteps : Obligations.GenIsItsFiveSubSteps := fun s h =>
  ⟨refill s 0, runCommands_blockSubSteps s h, whenInited_of_inited s _ h⟩

/-- Settles O37: SER is the gated write of the serialized W into the buffer, ADV the gated advance of S. -/
theorem serFillsTheBufferAndAdvAdvances : Obligations.SerFillsTheBufferAndAdvAdvances :=
  ⟨⟨spelledAs .ser, reservedBitsRejected_of_opcode .ser, gatedByInited .ser rfl⟩,
    ⟨spelledAs .adv, reservedBitsRejected_of_opcode .adv, gatedByInited .adv rfl⟩,
    fun s h => ⟨_, whenInited_of_inited s _ h, rfl, serF_word_byte s.W, rfl⟩,
    fun s h => ⟨_, whenInited_of_inited s _ h, counterOf_setS_advF s, advF_of_ne s.cfg.layout s.S, rfl⟩⟩

/-- Settles O38: GEN is the gated generation of one block into the buffer, whose words are a feed-forward and whose bytes
are their serialization. -/
theorem genGeneratesOneBlock : Obligations.GenGeneratesOneBlock :=
  ⟨spelledAs .gen, reservedBitsRejected_of_opcode .gen, gatedByInited .gen rfl,
    fun s h => ⟨refill s 0, whenInited_of_inited s _ h, feedForward_get _ s.S, serF_word_byte _, rfl, rfl, rfl⟩⟩

end Sys2Proof.Machine.BlockCore
end

section
/-! PROOFS. The streaming family, R60, R150, R153, R154: combined bytes of DMEM, the steps of PRODUCE, and FLUSH. -/

namespace Sys2Proof.Machine

/-! ### Combined bytes (R150) -/

/-- The byte a combine operation leaves: keystream byte `k` joined to the byte `old` of DMEM. -/
def joinByte : Mode → Byte → Byte → Byte
  | .xor, old, k => old ^^^ k
  | .copy, _, k => k

theorem combine_read_self (mode : Mode) (m : Memory) (a : Nat) (k : Byte) (h : Memory.wf m) :
    Memory.read (combine mode m a k) a = joinByte mode (Memory.read m a) k := by
  cases mode <;> exact (Memory.read_write m a a _ h).trans (if_pos rfl)

theorem combineBytes_read_outside (mode : Mode) (ks : List Byte) (m : Memory) (a b : Nat) (h : Memory.wf m)
    (hb : b < a ∨ a + ks.length ≤ b) : Memory.read (combineBytes mode m a ks) b = Memory.read m b := by
  induction ks generalizing m a with
  | nil => rfl
  | cons k ks ih =>
    rw [List.length_cons] at hb
    calc Memory.read (combineBytes mode (combine mode m a k) (a + 1) ks) b
      _ = Memory.read (combine mode m a k) b := ih _ _ (combine_wf mode m a k h) (by omega)
      _ = Memory.read m b := combine_read_of_ne mode m a b k h (by omega)

/-- The first byte of a run is not touched by the others, and each other one is joined to the byte that stood there. -/
theorem combineBytes_read_inside (mode : Mode) (ks : List Byte) (m : Memory) (a i : Nat) (h : Memory.wf m)
    (hi : i < ks.length) :
    Memory.read (combineBytes mode m a ks) (a + i) = joinByte mode (Memory.read m (a + i)) ks[i] := by
  induction ks generalizing m a i with
  | nil => simp at hi
  | cons k ks ih =>
    have hwf : Memory.wf (combine mode m a k) := combine_wf mode m a k h
    rw [combineBytes]
    cases i with
    | zero => exact (combineBytes_read_outside mode ks _ _ a hwf (by omega)).trans (combine_read_self mode m a k h)
    | succ i =>
      have hrest := ih _ (a + 1) i hwf (by simpa using hi)
      have hold : Memory.read (combine mode m a k) (a + 1 + i) = Memory.read m (a + 1 + i) :=
        combine_read_of_ne mode m a _ k h (by omega)
      rw [hold, Nat.add_assoc, Nat.add_comm 1 i] at hrest
      exact hrest

/-! ### PRODUCE by its steps (R60, R153) -/

/-- What is kept of DMEM_SIZE. -/
theorem ProduceKeeps.dmemSize (s t : State) (h : ProduceKeeps s t) : t.dmemSize = s.dmemSize := by rw [h.rest]

theorem argsFM_toNat (mode : Mode) : (argsFM mode).toNat = if mode = .copy then 1 else 0 := by
  cases mode <;> rfl

theorem exec_produce_of_inRange (mode : Mode) (a l : Word) (s : State) (h : s.status.inited = true)
    (hr : a.toNat + l.toNat ≤ s.dmemSize.val) :
    exec (.produce mode a l) s = .next (produce mode a.toNat l.toNat s) := by
  have hacc : rangeAccepted s a l = true := decide_eq_true hr
  exact (whenInited_of_inited s _ h).trans (by rw [if_pos hacc])

theorem exec_produce_of_outOfRange (mode : Mode) (a l : Word) (s : State) (h : s.status.inited = true)
    (hr : s.dmemSize.val < a.toNat + l.toNat) : exec (.produce mode a l) s = .next (s.record .range) := by
  have hrej : ¬ rangeAccepted s a l = true := by simpa [rangeAccepted] using hr
  exact (whenInited_of_inited s _ h).trans (by rw [if_neg hrej])

@[simp] theorem drain_pos (mode : Mode) (addr len : Nat) (s : State) :
    (drain mode addr len s).pos.val = s.pos.val + drainCount s len := rfl

@[simp] theorem drain_dmem (mode : Mode) (addr len : Nat) (s : State) : (drain mode addr len s).dmem
    = combineBytes mode s.dmem addr ((s.B.toList.drop s.pos.val).take (drainCount s len)) := rfl

/-- Step 1 does nothing where it hands out no byte. -/
theorem drain_of_drainCount_zero (mode : Mode) (addr len : Nat) (s : State) (h : drainCount s len = 0) :
    drain mode addr len s = s := by
  simp [drain, h, combineBytes]

/-- A PRODUCE that the buffer satisfies is its step 1. -/
theorem produce_of_buffered (mode : Mode) (addr len : Nat) (s : State) (h : len ≤ 64 - s.pos.val) :
    produce mode addr len s = drain mode addr len s := by
  have hd : drainCount s len = len := min_eq_left h
  simp [produce_eq, hd, wholeBlocks, tailBlock]

/-- With nothing buffered PRODUCE starts at step 2. -/
theorem produce_of_nothing_buffered (mode : Mode) (addr len : Nat) (s : State) (h : s.pos.val = 64) :
    produce mode addr len s = tailBlock mode (addr + 64 * (len / 64)) ⟨len % 64, Nat.mod_lt _ (by decide)⟩
      (wholeBlocks mode (len / 64) addr s) := by
  have hd : drainCount s len = 0 := by simp [drainCount, h]
  simp only [produce_eq, drain_of_drainCount_zero mode addr len s hd, hd, Nat.sub_zero, Nat.add_zero]

/-- A PRODUCE beyond what is buffered is the PRODUCE of that and then of the rest. -/
theorem produce_split (mode : Mode) (addr len n : Nat) (s : State) (hn : n = 64 - s.pos.val) (hl : n < len) :
    produce mode addr len s = produce mode (addr + n) (len - n) (produce mode addr n s) := by
  have hlen : drainCount s len = n := by unfold drainCount; omega
  have hd : drain mode addr len s = drain mode addr n s := by
    have hcount : drainCount s n = n := by unfold drainCount; omega
    simp only [drain, hlen, hcount]
  have hpos : (drain mode addr n s).pos.val = 64 := by
    have := s.pos.isLt
    rw [← hd, drain_pos, hlen]
    omega
  rw [produce_of_buffered mode addr n s (by omega), produce_of_nothing_buffered _ _ _ _ hpos, produce_eq, hlen, hd]

/-- With nothing buffered and 64 bytes or more to hand out, a whole block goes past the buffer and the rest follows. -/
theorem produce_whole_block (mode : Mode) (addr len : Nat) (s : State) (h : s.pos.val = 64) (hl : 64 ≤ len) :
    produce mode addr len s = produce mode (addr + 64) (len - 64)
      ((blockFn s).2.setDmem (combineBytes mode s.dmem addr (blockFn s).1.toList)) := by
  obtain ⟨k, rfl⟩ := Nat.exists_eq_add_of_le' hl
  have hdiv : (k + 64) / 64 = k / 64 + 1 := by omega
  have haddr : addr + 64 * (k / 64 + 1) = addr + 64 + 64 * (k / 64) := by omega
  rw [produce_of_nothing_buffered _ _ _ s h, hdiv, wholeBlocks_succ, Nat.add_sub_cancel,
    produce_of_nothing_buffered _ _ _ ((blockFn s).2.setDmem _) h, haddr]
  simp only [Nat.add_mod_right]

/-- A PRODUCE of no byte does nothing. -/
theorem produce_zero (mode : Mode) (addr : Nat) (s : State) : produce mode addr 0 s = s := by
  have hd : drainCount s 0 = 0 := Nat.zero_min _
  rw [produce_of_buffered mode addr 0 s (Nat.zero_le _), drain_of_drainCount_zero _ _ _ _ hd]

/-- With nothing buffered and 1 to 63 bytes to hand out, they are the first bytes of one block generated into the buffer. -/
theorem produce_tail (mode : Mode) (addr len : Nat) (s : State) (h : s.pos.val = 64) (h0 : 0 < len) (hl : len < 64) :
    produce mode addr len s = (refill s ⟨len, by omega⟩).setDmem
      (combineBytes mode s.dmem addr ((blockFn s).1.toList.take len)) := by
  have hdiv : len / 64 = 0 := Nat.div_eq_of_lt hl
  have hmod : len % 64 = len := Nat.mod_eq_of_lt hl
  have hne : (⟨len, hl⟩ : Fin 64) ≠ 0 := by simpa [Fin.ext_iff] using h0.ne'
  simp only [produce_of_nothing_buffered _ _ _ s h, hdiv, hmod, wholeBlocks, tailBlock, if_neg hne]
  rfl

/-- A PRODUCE command beyond what is buffered answers as one of the rest after the PRODUCE of what is buffered. -/
theorem exec_produce_split (mode : Mode) (a l n : Word) (s : State) (h : s.status.inited = true)
    (hr : a.toNat + l.toNat ≤ s.dmemSize.val) (hn : n.toNat = 64 - s.pos.val) (hl : n.toNat < l.toNat) :
    exec (.produce mode a l) s = exec (.produce mode (a + n) (l - n)) (produce mode a.toNat n.toNat s) := by
  have hkeep := produce_keeps mode a.toNat n.toNat s
  have ha : (a + n).toNat = a.toNat + n.toNat := by have := s.dmemSize.isLt; bv_omega
  have hs : (l - n).toNat = l.toNat - n.toNat := by bv_omega
  have hr' : a.toNat + n.toNat + (l.toNat - n.toNat) ≤ (produce mode a.toNat n.toNat s).dmemSize.val := by
    rw [hkeep.dmemSize]; omega
  rw [exec_produce_of_inRange mode a l s h hr,
    exec_produce_of_inRange mode (a + n) (l - n) _ (hkeep.status ▸ h) (by rw [ha, hs]; exact hr'), ha, hs,
    produce_split mode a.toNat l.toNat n.toNat s hn hl]

/-- A PRODUCE command of 64 bytes or more with nothing buffered answers as one of the rest after a whole block. At the end of
a DMEM of 2^32 bytes ADDR + 64 wraps to 0, but then no byte is left. -/
theorem exec_produce_whole_block (mode : Mode) (a l : Word) (s : State) (h : s.status.inited = true)
    (hr : a.toNat + l.toNat ≤ s.dmemSize.val) (hp : s.pos.val = 64) (hl : 64 ≤ l.toNat) :
    exec (.produce mode a l) s = exec (.produce mode (a + 64) (l - 64))
      ((blockFn s).2.setDmem (combineBytes mode s.dmem a.toNat (blockFn s).1.toList)) := by
  have hs : (l - 64).toNat = l.toNat - 64 := by bv_omega
  have hle : (a + 64).toNat ≤ a.toNat + 64 := by rw [BitVec.toNat_add]; exact Nat.mod_le _ _
  have hr' : (a + 64).toNat + (l.toNat - 64) ≤ s.dmemSize.val := by omega
  rw [exec_produce_of_inRange mode a l s h hr,
    exec_produce_of_inRange mode (a + 64) (l - 64) ((blockFn s).2.setDmem _) h (by rw [hs]; exact hr'),
    produce_whole_block mode _ _ s hp hl, hs]
  by_cases h64 : l.toNat = 64
  · rw [h64, Nat.sub_self, produce_zero, produce_zero]
  · have ha : (a + 64).toNat = a.toNat + 64 := by have := s.dmemSize.isLt; bv_omega
    rw [ha]

/-! ### The counter of the state words (R25, R26) -/

theorem wordsAtCounter_counterOf (s : State) : wordsAtCounter s (counterOf s) = s.S := by
  have hhigh : BitVec.ofNat 32 ((s.S[13].toNat * 2 ^ 32 + s.S[12].toNat) / 2 ^ 32) = s.S[13] := by bv_omega
  have hlow : BitVec.ofNat 32 (s.S[13].toNat * 2 ^ 32 + s.S[12].toNat) = s.S[12] := by bv_omega
  cases hl : s.cfg.layout with
  | djb =>
    simp only [wordsAtCounter, counterOf, hl, hlow, hhigh, Vector.set_getElem_self]
  | ietf =>
    simp only [wordsAtCounter, counterOf, hl, BitVec.ofNat_toNat, BitVec.setWidth_eq, Vector.set_getElem_self]

/-- The next block of a state is the block of its counter. -/
theorem outputWordsAt_counterOf (s : State) : outputWordsAt s (counterOf s) = blockWords s.S s.cfg.rounds.toNat := by
  rw [outputWordsAt, wordsAtCounter_counterOf]

theorem blockAt_counterOf (s : State) : blockAt s (counterOf s) = (blockFn s).1 := by
  rw [blockAt, outputWordsAt_counterOf, blockFn_bytes]

end Sys2Proof.Machine

namespace Sys2Proof.Machine.Streaming

/-- Settles O41: each byte of the run is joined by mode, and no other byte is touched. -/
theorem combineJoinsByteByByte : Obligations.CombineJoinsByteByByte := fun m a ks h =>
  ⟨fun i hi => ⟨combineBytes_read_inside .xor ks m a i h hi, combineBytes_read_inside .copy ks m a i h hi⟩,
    fun mode b hb => combineBytes_read_outside mode ks m a b h hb⟩

/-- Settles O39: FLUSH is the gated write of POS. -/
theorem flushDiscardsTheBuffer : Obligations.FlushDiscardsTheBuffer :=
  ⟨spelledAs .flush, reservedBitsRejected_of_opcode .flush, gatedByInited .flush rfl,
    fun s h => whenInited_of_inited s _ h⟩

/-- Settles O40: the range check, then what PRODUCE does by how much is buffered and how much is asked. -/
theorem produceRunsItsThreeSteps : Obligations.ProduceRunsItsThreeSteps := by
  refine ⟨fun m a l => ⟨argsFM_toNat m ▸ spelledAs (.produce m a l), gatedByInited _ rfl⟩,
    reservedBitsRejected_of_opcode .produce, fun s m a l h hr => exec_produce_of_outOfRange m a l s h hr,
    fun s m a l h hr hl => ?_, fun s m a l n h hr hn hl => ?_, fun s m a l h hr hp hl => ?_,
    fun s m a l h hr hp h0 hl => ?_⟩
  · have hd : drainCount s l.toNat = l.toNat := min_eq_left hl
    refine ⟨drain m a.toNat l.toNat s, ?_, ?_, ?_, rfl⟩
    · rw [exec_produce_of_inRange m a l s h hr, produce_of_buffered m _ _ s hl]
    · rw [drain_pos, hd]
    · rw [drain_dmem, hd]
  · exact ⟨_, exec_produce_of_inRange m a n s h (by omega), exec_produce_split m a l n s h hr hn hl⟩
  · rw [blockAt_counterOf, outputWordsAt_counterOf]
    exact exec_produce_whole_block m a l s h hr (congrArg Fin.val hp) hl
  · refine ⟨_, exec_produce_of_inRange m a l s h hr, ?_⟩
    rw [produce_tail m _ _ s (congrArg Fin.val hp) h0 hl, blockAt_counterOf, outputWordsAt_counterOf]
    exact ⟨rfl, rfl⟩

end Sys2Proof.Machine.Streaming
end

section
/-! PROOFS. The streaming family, R155 and R157: canonical memories by their bytes, the counter as blocks are generated, what a
PRODUCE hands out and what it does to all but DMEM, and the stream position that a list of PRODUCEs leaves. -/

namespace Sys2Proof.Machine

/-! ### Canonical memories by their bytes -/

/-- A canonical memory lists exactly the bytes that do not read as unlisted. -/
theorem Memory.mem_iff_read (m : Memory) (c : Host.Cell) (h : Memory.wf m) :
    c ∈ m ↔ c.2 ≠ Memory.unlisted ∧ Memory.read m c.1 = c.2 := by
  obtain ⟨a, v⟩ := c
  obtain ⟨hp, hv⟩ := h
  induction m with
  | nil => simp [Memory.read, eq_comm]
  | cons d m ih =>
    obtain ⟨b, u⟩ := d
    obtain ⟨hb, hm⟩ := List.pairwise_cons.mp hp
    rw [List.mem_cons, ih hm fun e he => hv e (List.mem_cons_of_mem _ he), Memory.read]
    have hu : u ≠ Memory.unlisted := hv (b, u) List.mem_cons_self
    by_cases hba : b = a
    · subst hba
      rw [Memory.read_of_lt m b hb, if_pos rfl]
      grind
    · simp [hba, Ne.symm hba]

theorem Memory.eq_of_read_eq (m d : Memory) (hm : Memory.wf m) (hd : Memory.wf d)
    (h : ∀ a, Memory.read m a = Memory.read d a) : m = d := by
  have hnodup : ∀ e : Memory, Memory.wf e → e.Nodup := fun e he =>
    he.1.imp fun hlt heq => by rw [heq] at hlt; exact lt_irrefl _ hlt
  have hmem : ∀ c, c ∈ m ↔ c ∈ d := fun c => by rw [Memory.mem_iff_read m c hm, Memory.mem_iff_read d c hd, h]
  exact ((List.perm_ext_iff_of_nodup (hnodup m hm) (hnodup d hd)).mpr hmem).eq_of_pairwise
    (fun _ _ _ _ hab hba => absurd hab (lt_asymm hba)) hm.1 hd.1

/-- Joining a keystream byte by XOR twice gives the old byte back. -/
theorem combineBytes_xor_twice (m : Memory) (a : Nat) (ks : List Byte) (h : Memory.wf m) :
    combineBytes .xor (combineBytes .xor m a ks) a ks = m := by
  have hwf := combineBytes_wf .xor ks m a h
  refine Memory.eq_of_read_eq _ _ (combineBytes_wf .xor ks _ a hwf) h fun b => ?_
  by_cases hb : b < a ∨ a + ks.length ≤ b
  · rw [combineBytes_read_outside .xor ks _ a b hwf hb, combineBytes_read_outside .xor ks m a b h hb]
  · obtain ⟨i, rfl⟩ := Nat.exists_eq_add_of_le (show a ≤ b by omega)
    have hi : i < ks.length := by omega
    rw [combineBytes_read_inside .xor ks _ a i hwf hi, combineBytes_read_inside .xor ks m a i h hi]
    simp [joinByte]

/-- COPY writes what XOR writes over zero bytes. -/
theorem combineBytes_copy_eq_xor_of_zero (m d : Memory) (a b : Nat) (ks : List Byte) (hm : Memory.wf m) (hd : Memory.wf d)
    (hab : a ≤ b) (hb : b < a + ks.length) (hz : Memory.read d b = 0) :
    Memory.read (combineBytes .copy m a ks) b = Memory.read (combineBytes .xor d a ks) b := by
  obtain ⟨i, rfl⟩ := Nat.exists_eq_add_of_le hab
  have hi : i < ks.length := by omega
  rw [combineBytes_read_inside .copy ks m a i hm hi, combineBytes_read_inside .xor ks d a i hd hi, hz]
  simp [joinByte]

/-! ### The counter as blocks are generated -/

/-- An advance of the words at a counter value gives the words at the next (R130, R131). -/
theorem advF_wordsAtCounter (s : State) (v : Nat) :
    advF s.cfg.layout (wordsAtCounter s v) = wordsAtCounter s (v + 1) := by
  have hlow : BitVec.ofNat 32 (v + 1) = BitVec.ofNat 32 v + 1 := BitVec.ofNat_add v 1
  cases hl : s.cfg.layout with
  | ietf => simp [advF, wordsAtCounter, advIetf, hl, hlow]
  | djb =>
    have hhigh : BitVec.ofNat 32 ((v + 1) / 2 ^ 32) =
        if BitVec.ofNat 32 v + 1 = 0 then BitVec.ofNat 32 (v / 2 ^ 32) + 1 else BitVec.ofNat 32 (v / 2 ^ 32) := by
      split <;> bv_omega
    have hcomm : ∀ x y z : Word, ((s.S.set 12 x).set 13 y).set 12 z = (s.S.set 12 z).set 13 y := fun x y z => by
      rw [Vector.set_comm _ _ (by decide), Vector.set_set]
    simp only [advF, wordsAtCounter, advDjb, hl, hcomm, hlow, hhigh]
    split <;> simp_all

/-- The engine has the words of `s` with the counter at `v`, and its round count and layout. -/
structure AtCounter (s : State) (v : Nat) (t : State) : Prop where
  cfg : t.cfg = s.cfg
  words : t.S = wordsAtCounter s v

theorem AtCounter.refl (s : State) : AtCounter s (counterOf s) s := ⟨rfl, (wordsAtCounter_counterOf s).symm⟩

/-- A block generation moves the counter on by one. -/
theorem AtCounter.blockFn {s t : State} {v : Nat} (h : AtCounter s v t) : AtCounter s (v + 1) (blockFn t).2 :=
  ⟨h.cfg, by rw [blockFn_S, h.cfg, h.words, advF_wordsAtCounter]⟩

theorem AtCounter.counterOf_eq {s t : State} {v : Nat} (h : AtCounter s v t) :
    counterOf t = v % counterModulus s.cfg.layout := by
  cases hl : s.cfg.layout with
  | djb =>
    have hwords : (v / 2 ^ 32 % 2 ^ 32) * 2 ^ 32 + v % 2 ^ 32 = v % 2 ^ 64 := by omega
    simpa [counterOf, counterModulus, h.cfg, h.words, wordsAtCounter, hl] using hwords
  | ietf => simp [counterOf, counterModulus, h.cfg, h.words, wordsAtCounter, hl]

/-- The words at later counter values are the same for both states. -/
theorem AtCounter.wordsAtCounter_add {s t : State} {v : Nat} (h : AtCounter s v t) (j : Nat) :
    wordsAtCounter t (counterOf t + j) = wordsAtCounter s (v + j) := by
  induction j with
  | zero => exact (wordsAtCounter_counterOf t).trans h.words
  | succ j ih => rw [← Nat.add_assoc, ← advF_wordsAtCounter t, ih, h.cfg, advF_wordsAtCounter, Nat.add_assoc]

theorem AtCounter.outputWordsAt_add {s t : State} {v : Nat} (h : AtCounter s v t) (j : Nat) :
    outputWordsAt t (counterOf t + j) = outputWordsAt s (v + j) := by
  rw [outputWordsAt, outputWordsAt, h.wordsAtCounter_add, h.cfg]

/-- The block that is generated next. -/
theorem AtCounter.blockWords_eq {s t : State} {v : Nat} (h : AtCounter s v t) :
    blockWords t.S t.cfg.rounds.toNat = outputWordsAt s v := by
  rw [h.words, h.cfg, outputWordsAt]

/-! ### The keystream (R155) -/

theorem keystreamBytes_add (s : State) (off m n : Nat) :
    keystreamBytes s off (m + n) = keystreamBytes s off m ++ keystreamBytes s (off + m) n := by
  simp [keystreamBytes, List.range_add, Nat.add_assoc, Function.comp_def]

@[simp] theorem keystreamBytes_zero (s : State) (off : Nat) : keystreamBytes s off 0 = [] := rfl

@[simp] theorem keystreamBytes_length (s : State) (off len : Nat) : (keystreamBytes s off len).length = len := by
  simp [keystreamBytes]

@[simp] theorem keystreamBytes_setDmem (s : State) (m : Memory) (off len : Nat) :
    keystreamBytes (s.setDmem m) off len = keystreamBytes s off len := rfl

/-- Bytes of the keystream that lie in one block. -/
theorem keystreamBytes_in_block (s : State) (q p len : Nat) (h : p + len ≤ 64) :
    keystreamBytes s (64 * q + p) len = ((blockAt s (counterOf s + q)).toList.drop p).take len := by
  refine List.ext_getElem (by simp; omega) fun i hi _ => ?_
  rw [keystreamBytes_length] at hi
  have hdiv : (64 * q + p + i) / 64 = q := by omega
  have hmod : (64 * q + p + i) % 64 = p + i := by omega
  simp [keystreamBytes, keystreamByte, hdiv, hmod]

/-- The first bytes of the keystream are those of the block that is generated next. -/
theorem keystreamBytes_of_blockFn (s : State) (len : Nat) (h : len ≤ 64) :
    keystreamBytes s 0 len = (blockFn s).1.toList.take len := by
  rw [← blockAt_counterOf s]
  exact keystreamBytes_in_block s 0 0 len (by omega)

/-- The keystream of an engine that has generated `g` blocks is what is left of the first one. -/
theorem AtCounter.keystreamBytes_eq {s t : State} {g : Nat} (h : AtCounter s (counterOf s + g) t) (len : Nat) :
    keystreamBytes t 0 len = keystreamBytes s (64 * g) len := by
  have hbyte : ∀ i, keystreamByte t i = keystreamByte s (64 * g + i) := fun i => by
    have hdiv : (64 * g + i) / 64 = g + i / 64 := by omega
    have hmod : (64 * g + i) % 64 = i % 64 := by omega
    simp only [keystreamByte, blockAt, h.outputWordsAt_add, hdiv, hmod, Nat.add_assoc]
  simp [keystreamBytes, hbyte]

@[simp] theorem State.setDmem_setDmem (s : State) (m d : Memory) : (s.setDmem m).setDmem d = s.setDmem d := rfl

/-! ### PRODUCE as bytes handed out and an effect on all but DMEM -/

/-- The engine after `k` blocks that go past the buffer. -/
def generate (k : Nat) (s : State) : State :=
  (fun t => (blockFn t).2)^[k] s

theorem generate_succ (k : Nat) (s : State) : generate (k + 1) s = generate k (blockFn s).2 := rfl

theorem generate_setDmem (k : Nat) (s : State) (m : Memory) : generate k (s.setDmem m) = (generate k s).setDmem m := by
  induction k generalizing s with
  | zero => rfl
  | succ k ih => exact ih (blockFn s).2

theorem AtCounter.generate {s t : State} {v : Nat} (h : AtCounter s v t) (k : Nat) :
    AtCounter s (v + k) (generate k t) := by
  induction k generalizing v t with
  | zero => exact h
  | succ k ih =>
    rw [generate_succ, Nat.add_comm k, ← Nat.add_assoc]
    exact ih h.blockFn

/-- Step 1 of PRODUCE but for DMEM: the cursor moves. -/
def advancePos (len : Nat) (s : State) : State :=
  { s with pos := ⟨s.pos.val + drainCount s len, Nat.lt_succ_of_le (drainCount_le s len).2⟩ }

theorem AtCounter.advancePos {s t : State} {v : Nat} (h : AtCounter s v t) (len : Nat) :
    AtCounter s v (advancePos len t) :=
  ⟨h.cfg, h.words⟩

@[simp] theorem keystreamBytes_advancePos (s : State) (off len n : Nat) :
    keystreamBytes (advancePos len s) off n = keystreamBytes s off n := rfl

/-- Step 3 of PRODUCE but for DMEM: a block in the buffer, none if no byte is left. -/
def bufferTail (rem : Fin 64) (s : State) : State :=
  if rem = 0 then s else refill s ⟨rem.val, by omega⟩

/-- What a PRODUCE of `len` bytes does to all but DMEM. -/
def advanceStream (len : Nat) (s : State) : State :=
  bufferTail ⟨(len - drainCount s len) % 64, Nat.mod_lt _ (by decide)⟩
    (generate ((len - drainCount s len) / 64) (advancePos len s))

/-- The bytes a PRODUCE of `len` bytes hands out: buffered ones, then the keystream from the current counter on. -/
def producedBytes (s : State) (len : Nat) : List Byte :=
  (s.B.toList.drop s.pos.val).take (drainCount s len) ++ keystreamBytes s 0 (len - drainCount s len)

theorem producedBytes_length (s : State) (len : Nat) : (producedBytes s len).length = len := by
  rw [producedBytes, List.length_append, drain_length, keystreamBytes_length]
  have := drainCount_le s len
  omega

theorem drain_eq (mode : Mode) (addr len : Nat) (s : State) : drain mode addr len s
    = (advancePos len s).setDmem
        (combineBytes mode s.dmem addr ((s.B.toList.drop s.pos.val).take (drainCount s len))) := rfl

theorem wholeBlocks_eq (mode : Mode) (k addr : Nat) (s : State) : wholeBlocks mode k addr s
    = (generate k s).setDmem (combineBytes mode s.dmem addr (keystreamBytes s 0 (64 * k))) := by
  induction k generalizing addr s with
  | zero => rfl
  | succ k ih =>
    have hblock : keystreamBytes s 0 64 = (blockFn s).1.toList := by
      rw [keystreamBytes_of_blockFn s 64 (le_refl _)]
      exact List.take_of_length_le (by simp)
    have hrest : keystreamBytes (blockFn s).2 0 (64 * k) = keystreamBytes s 64 (64 * k) :=
      (AtCounter.refl s).blockFn.keystreamBytes_eq (64 * k)
    rw [wholeBlocks_succ, ih, generate_setDmem, generate_succ, State.setDmem_dmem, Nat.mul_succ, Nat.add_comm (64 * k),
      keystreamBytes_add, combineBytes_append, keystreamBytes_length, hblock, Nat.zero_add, ← hrest]
    rfl

theorem tailBlock_eq (mode : Mode) (addr : Nat) (rem : Fin 64) (s : State) : tailBlock mode addr rem s
    = (bufferTail rem s).setDmem (combineBytes mode s.dmem addr (keystreamBytes s 0 rem.val)) := by
  unfold tailBlock bufferTail
  split
  next h => subst h; rfl
  next h => rw [keystreamBytes_of_blockFn s rem.val (by omega)]; rfl

theorem bufferTail_setDmem (rem : Fin 64) (s : State) (m : Memory) :
    bufferTail rem (s.setDmem m) = (bufferTail rem s).setDmem m := by
  unfold bufferTail
  split <;> rfl

theorem advanceStream_setDmem (len : Nat) (s : State) (m : Memory) :
    advanceStream len (s.setDmem m) = (advanceStream len s).setDmem m := by
  rw [advanceStream, advanceStream, ← bufferTail_setDmem, ← generate_setDmem]
  rfl

/-- PRODUCE joins the bytes it hands out to DMEM in one run, whatever the mode, the addresses and DMEM. -/
theorem produce_eq_advanceStream (mode : Mode) (addr len : Nat) (s : State) : produce mode addr len s
    = (advanceStream len s).setDmem (combineBytes mode s.dmem addr (producedBytes s len)) := by
  obtain ⟨d, hd⟩ : ∃ d, drainCount s len = d := ⟨_, rfl⟩
  obtain ⟨q, hq⟩ : ∃ q, (len - d) / 64 = q := ⟨_, rfl⟩
  have hlen : len - d = 64 * q + (len - d) % 64 := by omega
  have hdrained : ((s.B.toList.drop s.pos.val).take d).length = d := hd ▸ drain_length s len
  have htail : keystreamBytes (generate q (advancePos len s)) 0 ((len - d) % 64)
      = keystreamBytes s (64 * q) ((len - d) % 64) :=
    (((AtCounter.refl s).advancePos len).generate q).keystreamBytes_eq _
  have hbytes : producedBytes s len = (s.B.toList.drop s.pos.val).take d
      ++ (keystreamBytes s 0 (64 * q) ++ keystreamBytes s (64 * q) ((len - d) % 64)) := by
    rw [producedBytes, hd, hlen, keystreamBytes_add, Nat.zero_add, ← hlen]
  rw [produce_eq, tailBlock_eq, wholeBlocks_eq, drain_eq, advanceStream, hbytes, combineBytes_append, combineBytes_append]
  simp only [hd, hq, generate_setDmem, bufferTail_setDmem, State.setDmem_setDmem, State.setDmem_dmem,
    keystreamBytes_setDmem, keystreamBytes_advancePos, keystreamBytes_length, htail, hdrained]

theorem producedBytes_setDmem (s : State) (m : Memory) (len : Nat) :
    producedBytes (s.setDmem m) len = producedBytes s len := rfl

/-- A PRODUCE command over any DMEM hands out the same bytes and does the same to all but DMEM. -/
theorem exec_produce_setDmem (mode : Mode) (a l : Word) (s : State) (m : Memory) (h : s.status.inited = true)
    (hr : a.toNat + l.toNat ≤ s.dmemSize.val) : exec (.produce mode a l) (s.setDmem m)
      = .next ((advanceStream l.toNat s).setDmem (combineBytes mode m a.toNat (producedBytes s l.toNat))) := by
  rw [exec_produce_of_inRange mode a l (s.setDmem m) h hr, produce_eq_advanceStream, advanceStream_setDmem,
    producedBytes_setDmem]
  rfl

/-! ### The stream position (R155) -/

/-- From POS = 64 the engine has handed out `n` bytes of the keystream of `s`: it has generated the blocks they need, the
last of them is in the buffer where some of it is not handed out yet, and its words are in W. -/
structure Streamed (s : State) (n : Nat) (t : State) : Prop where
  counter : AtCounter s (counterOf s + (n + 63) / 64) t
  position : t.pos.val + 64 * ((n + 63) / 64) = n + 64
  buffer : t.pos.val < 64 → t.B = blockAt s (counterOf s + n / 64)
  output : 0 < n → t.W = outputWordsAt s (counterOf s + (n + 63) / 64 - 1)

theorem Streamed.start (s : State) (h : s.pos.val = 64) : Streamed s 0 s where
  counter := .refl s
  position := by omega
  buffer := fun hlt => absurd h hlt.ne
  output := fun h0 => absurd h0 (lt_irrefl 0)

/-- The position does not speak of DMEM. -/
theorem Streamed.setDmem {s t : State} {n : Nat} (h : Streamed s n t) (m : Memory) : Streamed s n (t.setDmem m) where
  counter := ⟨h.counter.cfg, h.counter.words⟩
  position := h.position
  buffer := h.buffer
  output := h.output

/-- Buffered bytes are handed out of the block that was generated last. -/
theorem Streamed.advancePos {s t : State} {n : Nat} (h : Streamed s n t) (len : Nat) :
    Streamed s (n + drainCount t len) (advancePos len t) := by
  have hp := h.position
  have hd := (drainCount_le t len).2
  have hblocks : (n + drainCount t len + 63) / 64 = (n + 63) / 64 := by omega
  refine ⟨?_, ?_, fun hlt => ?_, fun h0 => ?_⟩
  · rw [hblocks]
    exact h.counter.advancePos len
  · simp only [Machine.advancePos]
    omega
  · simp only [Machine.advancePos] at hlt
    have hblock : (n + drainCount t len) / 64 = n / 64 := by omega
    rw [hblock]
    exact h.buffer (by omega)
  · rw [hblocks]
    exact h.output (by omega)

/-- A block that goes past an empty buffer is handed out whole. -/
theorem Streamed.blockFn {s t : State} {n : Nat} (h : Streamed s n t) (hp : t.pos.val = 64) :
    Streamed s (n + 64) (blockFn t).2 := by
  have hpos := h.position
  have hblocks : (n + 64 + 63) / 64 = (n + 63) / 64 + 1 := by omega
  refine ⟨?_, ?_, fun hlt => absurd hp hlt.ne, fun _ => ?_⟩
  · rw [hblocks, ← Nat.add_assoc]
    exact h.counter.blockFn
  · rw [blockFn_pos]
    omega
  · rw [hblocks, blockFn_W, h.counter.blockWords_eq, ← Nat.add_assoc, Nat.add_sub_cancel]

theorem Streamed.generate {s t : State} {n : Nat} (h : Streamed s n t) (hp : t.pos.val = 64) (k : Nat) :
    Streamed s (n + 64 * k) (generate k t) ∧ (generate k t).pos.val = 64 := by
  induction k generalizing n t with
  | zero => exact ⟨h, hp⟩
  | succ k ih =>
    rw [generate_succ, Nat.mul_succ, Nat.add_comm (64 * k), ← Nat.add_assoc]
    exact ih (h.blockFn hp) hp

/-- A block that goes into an empty buffer is handed out in part. -/
theorem Streamed.bufferTail {s t : State} {n : Nat} (h : Streamed s n t) (hp : t.pos.val = 64) (rem : Fin 64) :
    Streamed s (n + rem.val) (bufferTail rem t) := by
  unfold Machine.bufferTail
  split
  next h0 => subst h0; exact h
  next h0 =>
    have hpos := h.position
    have hrem : 0 < rem.val := Nat.pos_of_ne_zero fun he => h0 (Fin.ext he)
    have hblocks : (n + rem.val + 63) / 64 = (n + 63) / 64 + 1 := by omega
    have hblock : (n + rem.val) / 64 = (n + 63) / 64 := by omega
    refine ⟨?_, ?_, fun _ => ?_, fun _ => ?_⟩
    · rw [hblocks, ← Nat.add_assoc]
      exact ⟨h.counter.blockFn.cfg, h.counter.blockFn.words⟩
    · rw [refill_pos]
      simp only
      omega
    · rw [refill_B, h.counter.blockWords_eq, hblock, blockAt]
    · rw [refill_W, h.counter.blockWords_eq, hblocks, ← Nat.add_assoc, Nat.add_sub_cancel]

/-- A PRODUCE takes the position on by its length. -/
theorem Streamed.advanceStream {s t : State} {n : Nat} (h : Streamed s n t) (len : Nat) :
    Streamed s (n + len) (advanceStream len t) := by
  have hd := drainCount_le t len
  have hdrained := h.advancePos len
  unfold Machine.advanceStream
  by_cases hlen : drainCount t len = len
  · simpa [hlen, Machine.generate, Machine.bufferTail] using hdrained
  · have hp : (Machine.advancePos len t).pos.val = 64 := by
      simp only [Machine.advancePos, drainCount] at hlen ⊢
      omega
    obtain ⟨hblocks, hp'⟩ := hdrained.generate hp ((len - drainCount t len) / 64)
    have htail := hblocks.bufferTail hp' ⟨(len - drainCount t len) % 64, Nat.mod_lt _ (by decide)⟩
    have hsum : n + drainCount t len + 64 * ((len - drainCount t len) / 64) + (len - drainCount t len) % 64 = n + len := by
      omega
    rwa [hsum] at htail

/-- What a PRODUCE hands out are the next bytes of the keystream. -/
theorem Streamed.producedBytes_eq {s t : State} {n : Nat} (h : Streamed s n t) (len : Nat) :
    producedBytes t len = keystreamBytes s n len := by
  obtain ⟨d, hd⟩ : ∃ d, drainCount t len = d := ⟨_, rfl⟩
  have hp := h.position
  have hle := drainCount_le t len
  have hbuffered : (t.B.toList.drop t.pos.val).take d = keystreamBytes s n d := by
    by_cases hlt : t.pos.val < 64
    · have hn : n = 64 * (n / 64) + t.pos.val := by omega
      rw [h.buffer hlt, ← keystreamBytes_in_block s (n / 64) t.pos.val d (by omega), ← hn]
    · have h0 : d = 0 := by omega
      rw [h0, List.take_zero, keystreamBytes_zero]
  have hrest : keystreamBytes t 0 (len - d) = keystreamBytes s (n + d) (len - d) := by
    by_cases hlen : len - d = 0
    · rw [hlen, keystreamBytes_zero, keystreamBytes_zero]
    · have hn : n + d = 64 * ((n + 63) / 64) := by
        unfold drainCount at hd
        omega
      rw [hn, h.counter.keystreamBytes_eq]
  rw [producedBytes, hd, hbuffered, hrest, ← keystreamBytes_add]
  congr 1
  omega

theorem Streamed.produce {s t : State} {n : Nat} (h : Streamed s n t) (mode : Mode) (addr len : Nat) :
    Streamed s (n + len) (produce mode addr len t) := by
  rw [produce_eq_advanceStream]
  exact (h.advanceStream len).setDmem _

/-- PRODUCEs that are in range all run: each takes the position on, and its bytes are the next of the keystream. -/
theorem Streamed.runCommands {s t : State} {n : Nat} (h : Streamed s n t) (reqs : List ProduceRequest)
    (hi : t.status.inited = true) (hr : ∀ r ∈ reqs, r.2.1.toNat + r.2.2.toNat ≤ t.dmemSize.val) :
    ∃ u, runCommands (reqs.map fun r => .produce r.1 r.2.1 r.2.2) t = .next u
      ∧ Streamed s (n + bytesAsked reqs) u ∧ u.dmem = handedOut s n reqs t.dmem := by
  induction reqs generalizing t n with
  | nil => exact ⟨t, rfl, h, rfl⟩
  | cons r reqs ih =>
    obtain ⟨mode, a, l⟩ := r
    obtain ⟨hra, hrs⟩ := List.forall_mem_cons.mp hr
    have hkeep := produce_keeps mode a.toNat l.toNat t
    obtain ⟨u, hu, hpos, hdmem⟩ := ih (h.produce mode a.toNat l.toNat) (by rw [hkeep.status, hi])
      (by rw [hkeep.dmemSize]; exact hrs)
    refine ⟨u, ?_, ?_, ?_⟩
    · rw [List.map_cons, runCommands_cons _ _ _ _ (exec_produce_of_inRange mode a l t hi hra), hu]
    · rw [bytesAsked, List.map_cons, List.sum_cons, ← Nat.add_assoc]
      exact hpos
    · rw [hdmem, produce_eq_advanceStream, State.setDmem_dmem, h.producedBytes_eq, handedOut]

end Sys2Proof.Machine

namespace Sys2Proof.Machine.Streaming

/-- Settles O43: the position after the whole list, read off field by field. -/
theorem producesFollowTheKeystream : Obligations.ProducesFollowTheKeystream := by
  intro s reqs hi hp hr
  obtain ⟨t, ht, hpos, hdmem⟩ := (Streamed.start s (congrArg Fin.val hp)).runCommands reqs hi hr
  rw [Nat.zero_add] at hpos
  have hposition := hpos.position
  refine ⟨t, ht, hdmem, hpos.counter.counterOf_eq, fun h0 => Fin.ext ?_, fun h0 => ⟨?_, hpos.buffer ?_⟩, hpos.output⟩
  · show t.pos.val = 64
    omega
  · omega
  · omega

/-- Settles O45: both runs hand out the same bytes and do the same to all but DMEM, so the bytes of DMEM decide. -/
theorem xorTwiceRestoresAndCopyIsXorOverZero : Obligations.XorTwiceRestoresAndCopyIsXorOverZero := by
  refine ⟨fun s a l hwf hi hr => ?_, fun s d a l hwf hwf' hi hr hz => ?_⟩
  · refine ⟨_, _, exec_produce_setDmem .xor a l s s.dmem hi hr, exec_produce_setDmem .xor a l s _ hi hr, ?_, rfl⟩
    exact combineBytes_xor_twice s.dmem a.toNat _ hwf
  · refine ⟨_, _, exec_produce_setDmem .copy a l s s.dmem hi hr, exec_produce_setDmem .xor a l s d hi hr,
      fun b hab hb => ?_, rfl⟩
    have hb' : b < a.toNat + (producedBytes s l.toNat).length := by rw [producedBytes_length]; exact hb
    exact combineBytes_copy_eq_xor_of_zero s.dmem d a.toNat b _ hwf hwf' hab hb' (hz b hab hb)

end Sys2Proof.Machine.Streaming
end

section
/-! PROOFS. The state access family (43_state_access.md R170 to R173): words of S after a write, responses in a row, and
what WRCTR and RDCTR do in each layout. -/

namespace Sys2Proof.Machine

/-! ### State words and responses -/

/-- The word of S that is written. -/
theorem State.writeS_S_self (s : State) (i : Index) (v : Word) : (s.writeS i v).S[i] = v :=
  (words_set s.S i i v).trans (if_pos rfl)

/-- A write leaves every other word of S. -/
theorem State.writeS_S_of_ne (s : State) (i j : Index) (v : Word) (h : j ≠ i) : (s.writeS i v).S[j] = s.S[j] :=
  (words_set s.S i j v).trans (if_neg h)

/-- Two responses stand in RESPQ in the order they were made. -/
theorem State.respond_respond (s : State) (v w : Word) :
    (s.respond v).respond w = { s with respq := s.respq ++ [v, w] } :=
  congrArg (fun q => { s with respq := q }) (List.append_assoc s.respq [v] [w])

/-! ### The counter commands by layout (R172, R173) -/

theorem exec_wrctr_of_djb (s : State) (lo hi : Word) (h : s.status.inited = true) (hl : s.cfg.layout = .djb) :
    exec (.wrctr lo hi) s = .next ((s.writeS 12 lo).writeS 13 hi) :=
  (whenInited_of_inited s _ h).trans (by rw [hl])

theorem exec_wrctr_of_ietf (s : State) (lo hi : Word) (h : s.status.inited = true) (hl : s.cfg.layout = .ietf) :
    exec (.wrctr lo hi) s = .next (if hi = 0 then s.writeS 12 lo else s.record .badOperand) :=
  (whenInited_of_inited s _ h).trans (by rw [hl])

theorem exec_rdctr_of_djb (s : State) (h : s.status.inited = true) (hl : s.cfg.layout = .djb) :
    exec .rdctr s = .next { s with respq := s.respq ++ [s.S[12], s.S[13]] } :=
  (whenInited_of_inited s _ h).trans (by rw [hl]; exact congrArg _ (s.respond_respond _ _))

theorem exec_rdctr_of_ietf (s : State) (h : s.status.inited = true) (hl : s.cfg.layout = .ietf) :
    exec .rdctr s = .next { s with respq := s.respq ++ [s.S[12], 0] } :=
  (whenInited_of_inited s _ h).trans (by rw [hl]; exact congrArg _ (s.respond_respond _ _))

end Sys2Proof.Machine

namespace Sys2Proof.Machine.StateAccess

/-- Settles O30: WRS is the gated write of one word of S, RDS the gated response of one. -/
theorem wrsAndRdsAccessOneStateWord : Obligations.WrsAndRdsAccessOneStateWord := by
  refine ⟨fun i v => ⟨argsFI_toNat i ▸ spelledAs (.wrs i v), gatedByInited _ rfl⟩,
    reservedBitsRejected_of_opcode .wrs,
    fun i => ⟨argsFI_toNat i ▸ spelledAs (.rds i), gatedByInited _ rfl⟩,
    reservedBitsRejected_of_opcode .rds, fun s i v h => ?_, fun s i h => whenInited_of_inited s _ h⟩
  exact ⟨s.writeS i v, whenInited_of_inited s _ h, s.writeS_S_self i v, fun j hj => s.writeS_S_of_ne i j v hj, rfl⟩

/-- Settles O31: in DJB layout the two writes are of different words, and in IETF layout the high word decides. -/
theorem wrctrSetsTheCounterByLayout : Obligations.WrctrSetsTheCounterByLayout := by
  refine ⟨fun lo hi => ⟨spelledAs (.wrctr lo hi), gatedByInited _ rfl⟩, reservedBitsRejected_of_opcode .wrctr,
    fun s lo hi h hl => ?_, fun s lo h hl => ?_, fun s lo hi h hl hne => ?_⟩
  · have hlow : ((s.writeS 12 lo).writeS 13 hi).S[(12 : Index)] = lo :=
      (State.writeS_S_of_ne _ 13 12 hi (by decide)).trans (s.writeS_S_self 12 lo)
    have hrest : ∀ j : Index, j ≠ 12 → j ≠ 13 → ((s.writeS 12 lo).writeS 13 hi).S[j] = s.S[j] := fun j h12 h13 =>
      (State.writeS_S_of_ne _ 13 j hi h13).trans (s.writeS_S_of_ne 12 j lo h12)
    exact ⟨_, exec_wrctr_of_djb s lo hi h hl, hlow, State.writeS_S_self _ 13 hi, hrest, rfl⟩
  · exact ⟨_, exec_wrctr_of_ietf s lo 0 h hl, s.writeS_S_self 12 lo, fun j hj => s.writeS_S_of_ne 12 j lo hj, rfl⟩
  · rw [exec_wrctr_of_ietf s lo hi h hl, if_neg hne]

/-- Settles O32: RDCTR makes two responses, and the layout decides the second. -/
theorem rdctrRespondsTheCounterByLayout : Obligations.RdctrRespondsTheCounterByLayout :=
  ⟨spelledAs .rdctr, reservedBitsRejected_of_opcode .rdctr, gatedByInited .rdctr rfl, exec_rdctr_of_djb,
    exec_rdctr_of_ietf⟩

end Sys2Proof.Machine.StateAccess
end

section
/-! PROOFS. The control family (44_control.md R190 to R195): the checks and effects of INIT, the fields of the status image,
and what every command but INIT keeps of CFG and INITED. -/

namespace Sys2Proof.Machine

/-! ### INIT (R77, R191) -/

theorem argsFC_toNat (l : Layout) (r : BitVec 8) :
    (argsFC l r).toNat = (if l = .ietf then 256 else 0) + r.toNat := by
  rw [argsFC, toNat_append_add, toNat_append_add]
  cases l <;> simp [Layout.bit]

theorem roundsAccepted_iff (r : BitVec 8) : roundsAccepted r = true ↔ r.toNat ∈ [8, 12, 20] := by
  simp [roundsAccepted, ← BitVec.toNat_inj, or_assoc]

theorem exec_init_of_accepted (l : Layout) (r : BitVec 8) (s : State) (hr : r.toNat ∈ [8, 12, 20]) :
    exec (.init l r) s = .next (construct l r s) :=
  if_pos ((roundsAccepted_iff r).mpr hr)

theorem exec_init_of_rejected (l : Layout) (r : BitVec 8) (s : State) (hr : r.toNat ∉ [8, 12, 20]) :
    exec (.init l r) s = .next (s.record .badRounds) :=
  if_neg (mt (roundsAccepted_iff r).mp hr)

/-- All that INIT can answer. -/
theorem exec_init_next (l : Layout) (r : BitVec 8) (s t : State) (h : exec (.init l r) s = .next t) :
    (r.toNat ∈ [8, 12, 20] ∧ t = construct l r s) ∨ (r.toNat ∉ [8, 12, 20] ∧ t = s.record .badRounds) := by
  by_cases hr : r.toNat ∈ [8, 12, 20]
  · rw [exec_init_of_accepted l r s hr] at h
    injection h with h
    exact .inl ⟨hr, h.symm⟩
  · rw [exec_init_of_rejected l r s hr] at h
    injection h with h
    exact .inr ⟨hr, h.symm⟩

/-- Key, counter and nonce start at 0. -/
theorem initialWords_after_constants : ∀ j : Index, 4 ≤ j.val → initialWords[j] = 0 := by
  decide

/-! ### The fields of the status image (R34) -/

/-- A field of a word, its lowest bit at `lo`. -/
def fieldAt {n : Nat} (x : BitVec n) (lo : Nat) : Word :=
  x.setWidth 32 <<< lo

theorem fieldAt_extractLsb'_self {n : Nat} (x : BitVec n) (lo : Nat) (h : lo + n ≤ 32) :
    (fieldAt x lo).extractLsb' lo n = x := by
  ext k hk
  simp [fieldAt, hk, show lo + k < 32 by omega]

/-- Bits beside a field are 0. -/
theorem fieldAt_extractLsb'_beside {n : Nat} (x : BitVec n) (lo i w : Nat) (h : i + w ≤ lo ∨ lo + n ≤ i) :
    (fieldAt x lo).extractLsb' i w = 0 := by
  ext k hk
  obtain h | h := h
  · simp [fieldAt, show i + k < lo by omega]
  · simp [fieldAt, BitVec.getLsbD_of_ge x (i + k - lo) (by omega)]

theorem bitWord_eq_setWidth (b : Bool) : bitWord b = (BitVec.ofBool b).setWidth 32 := by
  cases b <;> rfl

theorem statusImage_eq_fields (s : State) : statusImage s =
    fieldAt (BitVec.ofBool s.status.inited) 0 ||| fieldAt (BitVec.ofBool s.status.err) 1 ||| fieldAt s.status.errcode 4
      ||| fieldAt (if s.status.inited then s.cfg.layout.bit else 0) 8
      ||| fieldAt (if s.status.inited then s.cfg.rounds else 0) 16
      ||| fieldAt (if s.status.inited then BitVec.ofNat 7 s.pos.val else 0) 24 := by
  have hpos : BitVec.ofNat 32 s.pos.val = (BitVec.ofNat 7 s.pos.val).setWidth 32 := by
    have := s.pos.isLt
    bv_omega
  simp only [statusImage, bitWord_eq_setWidth, hpos]
  split <;> simp [fieldAt]

/-- R34's table, from bit 0 up. -/
theorem statusImage_fields (s : State) :
    (statusImage s).extractLsb' 0 1 = BitVec.ofBool s.status.inited
      ∧ (statusImage s).extractLsb' 1 1 = BitVec.ofBool s.status.err
      ∧ (statusImage s).extractLsb' 2 2 = 0
      ∧ (statusImage s).extractLsb' 4 4 = s.status.errcode
      ∧ (statusImage s).extractLsb' 8 1 = (if s.status.inited then s.cfg.layout.bit else 0)
      ∧ (statusImage s).extractLsb' 9 7 = 0
      ∧ (statusImage s).extractLsb' 16 8 = (if s.status.inited then s.cfg.rounds else 0)
      ∧ (statusImage s).extractLsb' 24 7 = (if s.status.inited then BitVec.ofNat 7 s.pos.val else 0)
      ∧ (statusImage s).extractLsb' 31 1 = 0 := by
  rw [statusImage_eq_fields]
  simp [BitVec.extractLsb'_or, fieldAt_extractLsb'_self, fieldAt_extractLsb'_beside]

/-- A bit is a field of one bit. -/
theorem getLsbD_of_extractLsb' (v : Word) (i : Nat) (x : BitVec 1) (h : v.extractLsb' i 1 = x) :
    v.getLsbD i = x.getLsbD 0 := by
  simp [← h]

theorem maskedLayout_getLsbD (b : Bool) (l : Layout) :
    (if b then l.bit else 0).getLsbD 0 = (b && l == .ietf) := by
  cases b <;> cases l <;> rfl

/-- POS, which is at most 64, is not cut off by its field. -/
theorem maskedPos_toNat (b : Bool) (p : Fin 65) :
    (if b then BitVec.ofNat 7 p.val else 0).toNat = if b then p.val else 0 := by
  have hp : p.val % 2 ^ 7 = p.val := Nat.mod_eq_of_lt (by omega)
  cases b with
  | true => exact hp
  | false => rfl

/-! ### What every command but INIT keeps (R192) -/

/-- CFG and INITED are kept. -/
structure KeepsConfig (s t : State) : Prop where
  cfg : t.cfg = s.cfg
  inited : t.status.inited = s.status.inited

/-- A rejection writes the error record only. -/
theorem KeepsConfig.record (s : State) (c : RejectCode) : KeepsConfig s (s.record c) := ⟨rfl, rfl⟩

theorem KeepsConfig.setW (s : State) (X : Words) : KeepsConfig s (s.setW X) := ⟨rfl, rfl⟩

theorem KeepsConfig.produce (mode : Mode) (addr len : Nat) (s : State) : KeepsConfig s (produce mode addr len s) :=
  have h := produce_keeps mode addr len s
  ⟨h.cfg, congrArg Status.inited h.status⟩

/-- The gate keeps what the command behind it keeps. -/
theorem KeepsConfig.whenInited {s t u : State} (h : KeepsConfig s t) (hu : whenInited s t = .next u) :
    KeepsConfig s u := by
  obtain ⟨-, rfl⟩ | ⟨-, rfl⟩ := whenInited_next s t u hu
  · exact h
  · exact .record s _

/-- A command that needs INITED is gated, and what it does behind the gate keeps CFG and INITED. -/
theorem exec_gated_keepsConfig (i : Instr) (s : State) (hi : needsInit i = true) :
    ∃ t, exec i s = whenInited s t ∧ KeepsConfig s t := by
  cases i with
  | nop | init | clear | rdstat | clrerr => cases hi
  | ldw | qr | colr | diagr | perm | ff => exact ⟨_, rfl, .setW s _⟩
  | wrs | rds | wrw | rdw | ser | adv | gen | flush => exact ⟨_, rfl, rfl, rfl⟩
  | wrctr lo hi =>
    refine ⟨_, rfl, ?_⟩
    split
    · exact ⟨rfl, rfl⟩
    · split
      · exact ⟨rfl, rfl⟩
      · exact .record s _
  | rdctr =>
    refine ⟨_, rfl, ?_⟩
    split <;> exact ⟨rfl, rfl⟩
  | produce mode addr len =>
    refine ⟨_, rfl, ?_⟩
    split
    · exact .produce mode _ _ s
    · exact .record s _

theorem KeepsConfig.exec (i : Instr) (s t : State) (hi : ∀ l r, i ≠ .init l r) (h : exec i s = .next t) :
    KeepsConfig s t := by
  by_cases hn : needsInit i = true
  · obtain ⟨u, hu, hk⟩ := exec_gated_keepsConfig i s hn
    exact hk.whenInited (hu ▸ h)
  · cases i with
    | init l r => exact absurd rfl (hi l r)
    | nop | clear | rdstat | clrerr =>
      injection h with h
      subst h
      exact ⟨rfl, rfl⟩
    | _ => exact absurd rfl hn

/-- A command that changes CFG is an INIT, and CFG holds its operands. -/
theorem exec_init_of_cfg_ne (i : Instr) (s t : State) (h : exec i s = .next t) (hc : t.cfg ≠ s.cfg) :
    ∃ l r, i = .init l r ∧ t.cfg = { layout := l, rounds := r } := by
  by_cases hi : ∀ l r, i ≠ .init l r
  · exact absurd (KeepsConfig.exec i s t hi h).cfg hc
  · push Not at hi
    obtain ⟨l, r, rfl⟩ := hi
    obtain ⟨-, rfl⟩ | ⟨-, rfl⟩ := exec_init_next l r s t h
    · exact ⟨l, r, rfl, rfl⟩
    · exact absurd rfl hc

/-- A step that changes CFG is a hardware reset or runs a command that changes it. -/
theorem step_reset_or_command_of_cfg_ne (s t : State) (h : step s = .next t) (hc : t.cfg ≠ s.cfg) :
    (∃ rest, s.input = .reset :: rest)
      ∨ ∃ i rest, parseInput s.parse s.input = .command i rest
          ∧ exec i { s with parse := .header, input := rest } = .next t := by
  obtain ⟨-, -, rfl⟩ | hcmd | ⟨c, rest, -, rfl⟩ | ⟨p, rest, -, rfl⟩ | ⟨a, v, rest, -, -, rfl⟩ | ⟨w, q, rest, -, -, rfl⟩
    | ⟨rest, hreset, -⟩ := step_cases s t h
  · exact absurd rfl hc
  · exact .inr hcmd
  · exact absurd rfl hc
  · exact absurd rfl hc
  · exact absurd rfl hc
  · exact absurd rfl hc
  · exact .inl ⟨rest, hreset⟩

end Sys2Proof.Machine

namespace Sys2Proof.Machine.Control

/-- Settles O26: NOP and CLRERR are not gated, and each answers the state of its rule by definition. -/
theorem nopAndClrerr : Obligations.NopAndClrerr :=
  ⟨spelledAs .nop, spelledAs .clrerr, reservedBitsRejected_of_opcode .nop, reservedBitsRejected_of_opcode .clrerr,
    fun _ => rfl, fun _ => rfl⟩

/-- Settles O27: the round count decides between the record and the constructed state, read off field by field. -/
theorem initConstructsOrRejects : Obligations.InitConstructsOrRejects := by
  refine ⟨fun l r => argsFC_toNat l r ▸ spelledAs (.init l r), reservedBitsRejected_of_opcode .init,
    fun s l r hr => exec_init_of_rejected l r s hr, fun s l r hr => ?_⟩
  exact ⟨construct l r s, exec_init_of_accepted l r s hr, rfl, rfl, rfl, rfl, rfl, rfl, initialWords_after_constants,
    fun _ => Vector.getElem_replicate _, fun _ => Vector.getElem_replicate _, rfl, rfl, rfl, rfl, rfl⟩

/-- Settles O28: CLEAR is not gated, and each file it writes is a constant vector of zeros. -/
theorem clearZeroesKeyBearingState : Obligations.ClearZeroesKeyBearingState :=
  ⟨spelledAs .clear, reservedBitsRejected_of_opcode .clear,
    fun _ => ⟨_, rfl, fun _ => Vector.getElem_replicate _, fun _ => Vector.getElem_replicate _,
      fun _ => Vector.getElem_replicate _, rfl, rfl⟩⟩

/-- Settles O29: RDSTAT responds the image, whose fields are R34's. -/
theorem rdstatRespondsTheStatusImage : Obligations.RdstatRespondsTheStatusImage := by
  refine ⟨spelledAs .rdstat, reservedBitsRejected_of_opcode .rdstat, fun s => ⟨statusImage s, rfl, ?_⟩⟩
  obtain ⟨hinited, herr, h2, hcode, hlayout, h9, hrounds, hpos, h31⟩ := statusImage_fields s
  refine ⟨?_, ?_, h2, hcode, ?_, h9, hrounds, ?_, getLsbD_of_extractLsb' _ 31 _ h31⟩
  · exact (getLsbD_of_extractLsb' _ 0 _ hinited).trans (BitVec.getLsbD_ofBool _ 0)
  · exact (getLsbD_of_extractLsb' _ 1 _ herr).trans (BitVec.getLsbD_ofBool _ 0)
  · exact (getLsbD_of_extractLsb' _ 8 _ hlayout).trans (maskedLayout_getLsbD _ _)
  · rw [hpos, maskedPos_toNat]

/-- Settles O55: a command either is INIT or keeps CFG and INITED, and a step that changes CFG runs a command or is a
hardware reset. -/
theorem onlyInitWritesTheConfiguration : Obligations.OnlyInitWritesTheConfiguration := by
  refine ⟨fun i s t hi h => ?_, fun l r s t h hs => ?_, fun s t h hc => ?_⟩
  · obtain ⟨hcfg, hinited⟩ := KeepsConfig.exec i s t hi h
    exact ⟨hcfg, hinited⟩
  · obtain ⟨-, rfl⟩ | ⟨-, rfl⟩ := exec_init_next l r s t h
    · rfl
    · exact hs
  · obtain hreset | ⟨i, rest, hp, hx⟩ := step_reset_or_command_of_cfg_ne s t h hc
    · exact .inl hreset
    · obtain ⟨l, r, rfl, hcfg⟩ := exec_init_of_cfg_ne i _ t hx hc
      exact .inr ⟨l, r, rest, hcfg, hp⟩

end Sys2Proof.Machine.Control
end

section
/-! PROOFS. The exceptions family (60_exceptions.md R211 to R219): the step that runs a whole command, two engines that differ
in the error record only, and the gate by INITED. -/

namespace Sys2Proof.Machine

/-! ### Incomplete and whole commands at the parser (R219) -/

/-- The words of an incomplete command are all taken, and the parser waits for more. -/
theorem parseInput_header_incomplete (ws : List Word) (hd : decode ws = .incomplete) :
    parseInput .header (ws.map .word) = .waiting (parseOf ws) [] := by
  have htaken := parseInput_incomplete .header ws [] fun k _ _ => decode_take_incomplete ws hd k
  simpa using htaken

/-- Words that complete the command the parser has begun are taken in one step, which executes it. -/
theorem step_of_command (s : State) (ws : List Word) (i : Instr) (rest : List Input) (hw : ws ≠ [])
    (hd : decode (s.parse.taken ++ ws) = .command i []) (hi : s.input = ws.map .word ++ rest) :
    step s = exec i { s with parse := .header, input := rest } := by
  obtain ⟨h, ops, hwords, hl, hdw⟩ := decode_command_words _ i [] hd
  rw [List.append_nil] at hwords
  have hparsed : parseInput s.parse s.input = .command i rest := by
    rw [hi, parseInput_whole s.parse h ops ws rest hw hl hwords, hdw]
  obtain ⟨w, ws', rfl⟩ := List.exists_cons_of_ne_nil hw
  rw [step_of_word s w _ hi, hparsed, runParsed]

/-! ### The error record and execution (R214) -/

/-- The same engine with another error record. -/
def State.withRecord (s : State) (e : Bool) (c : BitVec 4) : State :=
  { s with status := { s.status with err := e, errcode := c } }

/-- The states differ in ERR and ERRCODE only. -/
structure SameButRecord (s t : State) : Prop where
  inited : s.status.inited = t.status.inited
  rest : s = { t with status := s.status }

theorem SameButRecord.withRecord (s : State) (e : Bool) (c : BitVec 4) : SameButRecord s (s.withRecord e c) := ⟨rfl, rfl⟩

theorem SameButRecord.record {s t : State} (h : SameButRecord s t) (c : RejectCode) :
    SameButRecord (s.record c) (t.record c) :=
  ⟨h.inited, congrArg (fun u : State => { u with status := (s.record c).status }) h.rest⟩

theorem SameButRecord.setW {s t : State} (h : SameButRecord s t) (X : Words) : SameButRecord (s.setW X) (t.setW X) :=
  ⟨h.inited, congrArg (State.setW · X) h.rest⟩

/-- Both answers are next states, which differ in ERR and ERRCODE only. -/
def AnswersSameButRecord (o p : Host.Outcome State Fault Refusal) : Prop :=
  ∃ t u, o = .next t ∧ p = .next u ∧ SameButRecord t u

/-- The gate does not look at the error record. -/
theorem SameButRecord.whenInited {s t s' t' : State} (h : SameButRecord s t) (h' : SameButRecord s' t') :
    AnswersSameButRecord (whenInited s s') (whenInited t t') := by
  cases hi : s.status.inited with
  | true => exact ⟨s', t', whenInited_of_inited s s' hi, whenInited_of_inited t t' (h.inited ▸ hi), h'⟩
  | false =>
    exact ⟨_, _, whenInited_of_not_inited s s' hi, whenInited_of_not_inited t t' (h.inited ▸ hi), h.record _⟩

theorem wholeBlocks_withRecord (mode : Mode) (k addr : Nat) (s : State) (e : Bool) (c : BitVec 4) :
    wholeBlocks mode k addr (s.withRecord e c) = (wholeBlocks mode k addr s).withRecord e c := by
  induction k generalizing addr s with
  | zero => rfl
  | succ k ih =>
    rw [wholeBlocks_succ, wholeBlocks_succ, ← ih]
    rfl

theorem tailBlock_withRecord (mode : Mode) (addr : Nat) (rem : Fin 64) (s : State) (e : Bool) (c : BitVec 4) :
    tailBlock mode addr rem (s.withRecord e c) = (tailBlock mode addr rem s).withRecord e c := by
  unfold tailBlock
  split <;> rfl

/-- No step of PRODUCE reads or writes the error record. -/
theorem produce_withRecord (mode : Mode) (addr len : Nat) (s : State) (e : Bool) (c : BitVec 4) :
    produce mode addr len (s.withRecord e c) = (produce mode addr len s).withRecord e c := by
  rw [produce_eq, produce_eq, ← tailBlock_withRecord, ← wholeBlocks_withRecord]
  rfl

/-- What a gated command does behind the gate does not depend on the error record. -/
theorem exec_gated_withRecord (i : Instr) (s : State) (e : Bool) (c : BitVec 4) (hi : needsInit i = true) :
    ∃ t u, exec i s = whenInited s t ∧ exec i (s.withRecord e c) = whenInited (s.withRecord e c) u
      ∧ SameButRecord t u := by
  have hs := SameButRecord.withRecord s e c
  cases i with
  | nop | init | clear | rdstat | clrerr => cases hi
  | ldw | qr | colr | diagr | perm | ff => exact ⟨_, _, rfl, rfl, hs.setW _⟩
  | wrs | rds | wrw | rdw | ser | adv | gen | flush => exact ⟨_, _, rfl, rfl, rfl, rfl⟩
  | wrctr lo hi =>
    refine ⟨_, _, rfl, rfl, ?_⟩
    cases hl : s.cfg.layout with
    | djb =>
      simp only [State.withRecord, hl]
      exact ⟨rfl, rfl⟩
    | ietf =>
      simp only [State.withRecord, hl]
      split
      · exact ⟨rfl, rfl⟩
      · exact hs.record _
  | rdctr =>
    refine ⟨_, _, rfl, rfl, ?_⟩
    cases hl : s.cfg.layout with
    | djb | ietf =>
      simp only [State.withRecord, hl]
      exact ⟨rfl, rfl⟩
  | produce mode addr len =>
    refine ⟨_, _, rfl, rfl, ?_⟩
    rw [produce_withRecord]
    have hr : rangeAccepted (s.withRecord e c) addr len = rangeAccepted s addr len := rfl
    rw [hr]
    split
    · exact .withRecord _ e c
    · exact hs.record _

/-- Every command but RDSTAT does the same whatever the error record. -/
theorem exec_withRecord (i : Instr) (s : State) (e : Bool) (c : BitVec 4) (hi : i ≠ .rdstat) :
    AnswersSameButRecord (exec i s) (exec i (s.withRecord e c)) := by
  have hs := SameButRecord.withRecord s e c
  by_cases hn : needsInit i = true
  · obtain ⟨t, u, ht, hu, htu⟩ := exec_gated_withRecord i s e c hn
    rw [ht, hu]
    exact hs.whenInited htu
  · cases i with
    | rdstat => exact absurd rfl hi
    | nop | clear | clrerr => exact ⟨_, _, rfl, rfl, rfl, rfl⟩
    | init l r =>
      by_cases hr : r.toNat ∈ [8, 12, 20]
      · exact ⟨_, _, exec_init_of_accepted l r s hr, exec_init_of_accepted l r _ hr, rfl, rfl⟩
      · exact ⟨_, _, exec_init_of_rejected l r s hr, exec_init_of_rejected l r _ hr, hs.record _⟩
    | _ => exact absurd rfl hn

/-! ### The gate (R217) -/

/-- R217's list of the commands that are not gated is complete. -/
theorem needsInit_of_ne (i : Instr) (hnop : i ≠ .nop) (hinit : ∀ l r, i ≠ .init l r) (hclear : i ≠ .clear)
    (hrdstat : i ≠ .rdstat) (hclrerr : i ≠ .clrerr) : needsInit i = true := by
  cases i with
  | nop => exact absurd rfl hnop
  | init l r => exact absurd rfl (hinit l r)
  | clear => exact absurd rfl hclear
  | rdstat => exact absurd rfl hrdstat
  | clrerr => exact absurd rfl hclrerr
  | _ => rfl

end Sys2Proof.Machine

namespace Sys2Proof.Machine.Exceptions

/-- Settles O8: the parser takes all the words of an incomplete command, and those that come later complete it. -/
theorem incompleteCommandWaits : Obligations.IncompleteCommandWaits := by
  intro s ws hp hw hd hi
  obtain ⟨w, ws', rfl⟩ := List.exists_cons_of_ne_nil hw
  refine ⟨?_, rfl, fun more i hmore => ?_⟩
  · rw [step_of_word s w _ hi, hp, hi, parseInput_header_incomplete _ hd, runParsed]
  · have hne : more ≠ [] := by
      rintro rfl
      rw [List.append_nil, hd] at hmore
      cases hmore
    exact step_of_command _ more i [] hne hmore (List.append_nil _).symm

/-- Settles O16: RDSTAT responds one word in each state, and every other command does the same in both. -/
theorem errorRecordDoesNotChangeExecution : Obligations.ErrorRecordDoesNotChangeExecution := by
  intro i s e c
  by_cases hi : i = .rdstat
  · subst hi
    exact ⟨s.respond (statusImage s), _, rfl, rfl, rfl, rfl, fun hne => absurd rfl hne, fun _ => ⟨_, _, rfl, rfl⟩⟩
  · obtain ⟨t, u, ht, hu, hinited, hrest⟩ := exec_withRecord i s e c hi
    have hrespq : t.respq = u.respq := by rw [hrest]
    exact ⟨t, u, ht, hu, hinited, by rw [hrespq]; exact hrest, fun _ => hrespq, fun h => absurd h hi⟩

/-- Settles O17: each command passes the gate and has no check on its data, and what it does keeps STATUS. -/
theorem dataValuesAreNeverRejected : Obligations.DataValuesAreNeverRejected := by
  intro s h
  refine ⟨fun i hi => ?_, fun i v => ⟨_, whenInited_of_inited s _ h, s.writeS_status i v⟩,
    fun i v => ⟨_, whenInited_of_inited s _ h, s.writeW_status i v⟩,
    fun hl lo hi => ⟨_, exec_wrctr_of_djb s lo hi h hl, rfl⟩, fun m a l d hr => ?_⟩
  · obtain rfl | rfl : i = .adv ∨ i = .gen := by simpa using hi
    · exact ⟨_, whenInited_of_inited s _ h, s.setS_status _⟩
    · exact ⟨_, whenInited_of_inited s _ h, refill_status s 0⟩
  · exact ⟨_, exec_produce_of_inRange m a l (s.setDmem d) h hr, (produce_keeps m _ _ (s.setDmem d)).status⟩

/-- Settles O13: the record's own fields, and R211's numbers. -/
theorem recordKeepsTheFirstCode : Obligations.RecordKeepsTheFirstCode := by
  refine ⟨fun s c => ⟨fun h => ?_, fun h => ?_, s.record_err c, rfl⟩, rfl, rfl, rfl, rfl, rfl, rfl⟩
  · rw [s.record_errcode, if_neg (by simp [h])]
  · rw [s.record_errcode, if_pos h]

/-- Settles O15: every command that R217 does not except is gated. -/
theorem commandsAreGatedByInited : Obligations.CommandsAreGatedByInited :=
  fun i s h hnop hinit hclear hrdstat hclrerr =>
    gatedByInited i (needsInit_of_ne i hnop hinit hclear hrdstat hclrerr) s h

end Sys2Proof.Machine.Exceptions
end

section
/-! PROOFS. The reset and hazards family (70_reset_and_hazards.md R240): what a hardware reset answers at any parser position. -/

namespace Sys2Proof.Machine.ResetAndHazards

/-- Settles O11: the step that sees the reset answers `hardReset` whatever the parser awaits, which takes STATUS, RESPQ and the
parser from the reset state and keeps DMEM. -/
theorem hardwareResetAbandonsTheCommand : Obligations.HardwareResetAbandonsTheCommand := by
  intro s rest h
  refine ⟨hardReset { s with input := rest }, step_of_reset s rest h, ?_⟩
  rw [hardReset_status, hardReset_respq, hardReset_parse, hardReset_dmem, hardReset_dmemSize]
  exact ⟨rfl, rfl, rfl, rfl, rfl, rfl, rfl⟩

end Sys2Proof.Machine.ResetAndHazards
end

section
/-! PROOFS. The encoder against the decoder (30_encoding.md R71 to R78, R85): the fields of ARGS as numbers, the reserved
bits as a bound, and a command from its opcode, its ARGS and its operand words and back. -/

namespace Sys2Proof

open Sys2Proof.Machine

/-! ### The fields of ARGS as numbers (R75 to R79) -/

theorem indexField_val (args : BitVec 24) (lo : Nat) : (indexField args lo).val = args.toNat / 2 ^ lo % 16 := by
  simp [indexField, Nat.shiftRight_eq_div_pow]

theorem roundsField_toNat (args : BitVec 24) : (roundsField args).toNat = args.toNat % 256 := by
  simp [roundsField]

theorem layoutField_eq (args : BitVec 24) :
    layoutField args = if args.toNat / 256 % 2 = 1 then .ietf else .djb := by
  simp [layoutField, BitVec.getLsbD, Nat.testBit_eq_decide_div_mod_eq]

theorem modeField_eq (args : BitVec 24) : modeField args = if args.toNat % 2 = 1 then .copy else .xor := by
  simp [modeField, BitVec.getLsbD, Nat.testBit_eq_decide_div_mod_eq]

/-! ### The reserved bits as a bound (R74 to R78) -/

/-- The number of ARGS bits a format uses, its lowest ones. -/
def Format.usedBits : Format → Nat
  | .f0 => 0
  | .fi => 4
  | .fq => 16
  | .fc => 9
  | .fm => 1

theorem Format.reservedMask_eq (f : Format) : f.reservedMask = BitVec.allOnes 24 <<< f.usedBits := by
  cases f <;> decide

/-- With its reserved bits 0, ARGS is a number of the bits that the format uses. -/
theorem args_lt_of_reserved_zero (f : Format) (args : BitVec 24) (h : args &&& f.reservedMask = 0) :
    args.toNat < 2 ^ f.usedBits := by
  refine Nat.lt_pow_two_of_testBit _ fun i hi => ?_
  by_cases h24 : i < 24
  · have hmask : f.reservedMask.getLsbD i = true := by
      rw [f.reservedMask_eq, BitVec.getLsbD_shiftLeft, BitVec.getLsbD_allOnes]
      simp only [Bool.and_eq_true, Bool.not_eq_true', decide_eq_true_eq, decide_eq_false_iff_not]
      omega
    have hbit : (args &&& f.reservedMask).getLsbD i = false := by rw [h]; exact BitVec.getLsbD_zero
    rwa [BitVec.getLsbD_and, hmask, Bool.and_true] at hbit
  · exact args.getLsbD_of_ge i (by omega)

/-! ### A command and its opcode, ARGS and operand words (R85) -/

/-- The decoder reads every field back from where the encoder puts it. -/
theorem command_encodeArgs (i : Instr) : i.opcode.command (encodeArgs i) (encodeOperands i) = i := by
  have hFI : ∀ j : Index, indexField (argsFI j) 0 = j := fun j => Fin.ext <| by
    rw [indexField_val, argsFI_toNat]; omega
  cases i with
  | init l r =>
    have hr : roundsField (argsFC l r) = r := BitVec.eq_of_toNat_eq <| by
      rw [roundsField_toNat, argsFC_toNat]; split <;> omega
    have hl : layoutField (argsFC l r) = l := by
      rw [layoutField_eq, argsFC_toNat]
      cases l <;> simp <;> omega
    exact congrArg₂ Instr.init hl hr
  | wrs j v => exact congrArg (Instr.wrs · v) (hFI j)
  | rds j => exact congrArg Instr.rds (hFI j)
  | wrw j v => exact congrArg (Instr.wrw · v) (hFI j)
  | rdw j => exact congrArg Instr.rdw (hFI j)
  | qr a b c d =>
    have hFQ : ∀ (lo : Nat) (j : Index), (argsFQ a b c d).toNat / 2 ^ lo % 16 = j.val →
        indexField (argsFQ a b c d) lo = j := fun lo j h => Fin.ext ((indexField_val _ lo).trans h)
    rw [argsFQ_toNat] at hFQ
    simp only [Instr.opcode, encodeArgs, Opcode.command, hFQ 12 a (by omega), hFQ 8 b (by omega), hFQ 4 c (by omega),
      hFQ 0 d (by omega)]
  | produce m a l =>
    have hm : modeField (argsFM m) = m := by
      rw [modeField_eq, argsFM_toNat]
      cases m <;> rfl
    exact congrArg (Instr.produce · a l) hm
  | _ => rfl

theorem opcode_command (op : Opcode) (args : BitVec 24) (ops : List Word) : (op.command args ops).opcode = op := by
  cases op <;> rfl

theorem encodeOperands_command (op : Opcode) (args : BitVec 24) (ops : List Word) (hl : ops.length = op.operandCount) :
    encodeOperands (op.command args ops) = ops := by
  cases op with
  | wrs | wrw =>
    obtain ⟨v, rfl⟩ := List.length_eq_one_iff.mp hl
    rfl
  | wrctr | produce =>
    obtain ⟨v, w, rfl⟩ := List.length_eq_two.mp hl
    rfl
  | _ => exact (List.length_eq_zero_iff.mp hl).symm

/-- Where the reserved bits are 0, the encoder puts every field back where the decoder read it. -/
theorem encodeArgs_command (op : Opcode) (args : BitVec 24) (ops : List Word)
    (hr : args &&& op.format.reservedMask = 0) : encodeArgs (op.command args ops) = args := by
  have hlt := args_lt_of_reserved_zero op.format args hr
  refine BitVec.eq_of_toNat_eq ?_
  cases op with
  | init =>
    simp only [Opcode.format, Format.usedBits] at hlt
    simp only [Opcode.command, encodeArgs, argsFC_toNat, layoutField_eq, roundsField_toNat]
    split <;> simp <;> omega
  | wrs | rds | wrw | rdw =>
    simp only [Opcode.format, Format.usedBits] at hlt
    simp only [Opcode.command, encodeArgs, argsFI_toNat, indexField_val]
    omega
  | qr =>
    simp only [Opcode.format, Format.usedBits] at hlt
    simp only [Opcode.command, encodeArgs, argsFQ_toNat, indexField_val]
    omega
  | produce =>
    simp only [Opcode.format, Format.usedBits] at hlt
    simp only [Opcode.command, encodeArgs, argsFM_toNat, modeField_eq]
    split <;> simp <;> omega
  | _ => exact (Nat.lt_one_iff.mp hlt).symm

/-- A header word is its two fields (R71). -/
theorem opField_append_argsField (h : Word) : opField h ++ argsField h = h := by
  refine BitVec.eq_of_toNat_eq ?_
  simp only [opField, argsField, toNat_append_add, BitVec.extractLsb'_toNat, Nat.shiftRight_eq_div_pow]
  omega

/-! ### Decoding a header with an assigned opcode -/

theorem decodeWhole_of_opcode (h : Word) (op : Opcode) (ops rest : List Word) (ho : opField h = op.number)
    (hr : argsField h &&& op.format.reservedMask = 0) :
    decodeWhole h ops rest = .command (op.command (argsField h) ops) rest := by
  simp only [decodeWhole, ho, Laws.HeaderSelects.ofNumber_number, if_pos hr]

/-- All that a header which decodes to a command can be. -/
theorem decodeWhole_command (h : Word) (ops rest ws : List Word) (i : Instr) (hd : decodeWhole h ops rest = .command i ws) :
    ∃ op : Opcode, opField h = op.number ∧ argsField h &&& op.format.reservedMask = 0
      ∧ i = op.command (argsField h) ops := by
  unfold decodeWhole at hd
  split at hd
  · cases hd
  next op hop =>
    split at hd
    next hr =>
      injection hd with hi
      exact ⟨op, (ofNumber_eq_some _ _ hop).symm, hr, hi.symm⟩
    · cases hd

end Sys2Proof

namespace Sys2Proof.Machine.Encoding

/-- Settles O5: the header selects the command's opcode with its reserved bits 0, and the fields read back as they were. -/
theorem decodeEncodeRoundTrip : Obligations.DecodeEncodeRoundTrip := by
  intro i rest
  obtain ⟨hop, hreserved, hlength⟩ := Laws.HeaderSelects.of_instr i
  have hargs : argsField (encodeHeader i) = encodeArgs i := Laws.HeaderSelects.argsField_append _ _
  rw [encode, List.cons_append, decode_whole _ _ _ hlength, decodeWhole_of_opcode _ _ _ _ hop hreserved, hargs,
    command_encodeArgs]

/-- Settles O6: the header of a decoded command has its opcode and its ARGS, and the operand words are as many as the
opcode takes. -/
theorem decodedWordsAreTheEncoding : Obligations.DecodedWordsAreTheEncoding := by
  intro ws i rest hd
  obtain ⟨h, ops, rfl, hl, hdw⟩ := decode_command_words ws i rest hd
  obtain ⟨op, hop, hr, rfl⟩ := decodeWhole_command h ops rest rest i hdw
  rw [operandCountOf_of_opcode h op hop] at hl
  have hheader : encodeHeader (op.command (argsField h) ops) = h := by
    rw [encodeHeader, opcode_command, encodeArgs_command _ _ _ hr, ← hop, opField_append_argsField]
  rw [encode, hheader, encodeOperands_command _ _ _ hl, List.cons_append]

/-- Settles O1: the decoder evaluated on the fourteen word lists. -/
theorem sampleWordsDecode : Obligations.SampleWordsDecode := by
  unfold Obligations.SampleWordsDecode
  decide

/-- Settles O7: the words of a command decode to it, so both parts are the step that completes a command. -/
theorem stepRunsTheDecodedCommand : Obligations.StepRunsTheDecodedCommand := by
  refine ⟨fun s i rest hp hi => ?_, fun s ws i rest _ hw hd hi => step_of_command s ws i rest hw hd hi⟩
  have hd : decode (s.parse.taken ++ encode i) = .command i [] := by
    simpa [hp] using decodeEncodeRoundTrip i []
  rw [step_of_command s (encode i) i rest (List.cons_ne_nil _ _) hd hi, ← hp]

end Sys2Proof.Machine.Encoding
end

section
/-! PROOFS. What a decoded command answers (60_exceptions.md R213, R215): the record of its first cause of rejection, or its
effect; and what each effect leaves unchanged (10_state.md R29). -/

namespace Sys2Proof.Machine

/-! ### The causes of rejection and the effects -/

/-- What a command does when nothing rejects it. -/
def effect (i : Instr) (s : State) : State :=
  match i with
  | .nop => s
  | .init l r => construct l r s
  | .clear => { s with S := .replicate 16 0, W := .replicate 16 0, B := .replicate 64 0, pos := 64 }
  | .rdstat => s.respond (statusImage s)
  | .clrerr => s.clearRecord
  | .wrs j v => s.writeS j v
  | .rds j => s.respond (s.readS j)
  | .wrctr lo hi => s.setS (match s.cfg.layout with
    | .djb => (s.S.set 12 lo).set 13 hi
    | .ietf => s.S.set 12 lo)
  | .rdctr => (s.respond (s.readS 12)).respond (match s.cfg.layout with
    | .djb => s.readS 13
    | .ietf => 0)
  | .ldw => s.setW s.S
  | .wrw j v => s.writeW j v
  | .rdw j => s.respond (s.readW j)
  | .qr a b c d => s.setW (qrF s.W a b c d)
  | .colr => s.setW (colrF s.W)
  | .diagr => s.setW (diagrF s.W)
  | .perm => s.setW (permF s.W s.cfg.rounds.toNat)
  | .ff => s.setW (feedForward s.W s.S)
  | .ser => s.setBuffer (serF s.W) 0
  | .adv => s.setS (advF s.cfg.layout s.S)
  | .gen => refill s 0
  | .flush => { s with pos := 64 }
  | .produce m a l => produce m a.toNat l.toNat s

theorem rejectCause_of_not_inited (i : Instr) (s : State) (hn : needsInit i = true) (h : s.status.inited = false) :
    rejectCause s i = some .notInit :=
  if_pos ⟨hn, h⟩

theorem rejectCause_of_passed_gate (i : Instr) (s : State) (h : needsInit i = true → s.status.inited = true) :
    rejectCause s i = ownCheck s i :=
  if_neg fun ⟨hn, hi⟩ => by simp [h hn] at hi

/-- Past the gate a command is rejected by its own check or has its effect. -/
theorem exec_of_passed_gate (i : Instr) (s : State) (h : needsInit i = true → s.status.inited = true) :
    exec i s = .next ((ownCheck s i).elim (effect i s) s.record) := by
  cases i with
  | nop | clear | rdstat | clrerr => rfl
  | init l r =>
    by_cases hr : r.toNat ∈ [8, 12, 20]
    · rw [exec_init_of_accepted l r s hr, ownCheck, if_pos hr]; rfl
    · rw [exec_init_of_rejected l r s hr, ownCheck, if_neg hr]; rfl
  | wrctr lo hi =>
    cases hl : s.cfg.layout with
    | djb =>
      rw [exec_wrctr_of_djb s lo hi (h rfl) hl, ownCheck, if_neg (by simp [hl]), Option.elim, effect, hl]
      rfl
    | ietf =>
      rw [exec_wrctr_of_ietf s lo hi (h rfl) hl]
      by_cases h0 : hi = 0
      · rw [if_pos h0, ownCheck, if_neg (by simp [h0]), Option.elim, effect, hl]
        rfl
      · rw [if_neg h0, ownCheck, if_pos ⟨hl, h0⟩, Option.elim]
  | rdctr =>
    cases hl : s.cfg.layout with
    | djb | ietf =>
      refine (whenInited_of_inited s _ (h rfl)).trans ?_
      rw [ownCheck, Option.elim, effect, hl]
  | produce m a l =>
    by_cases hr : a.toNat + l.toNat ≤ s.dmemSize.val
    · rw [exec_produce_of_inRange m a l s (h rfl) hr, ownCheck, if_neg (by omega)]; rfl
    · rw [exec_produce_of_outOfRange m a l s (h rfl) (by omega), ownCheck, if_pos (by omega)]; rfl
  | _ => exact whenInited_of_inited s _ (h rfl)

theorem exec_of_cause (i : Instr) (s : State) (c : RejectCode) (hc : rejectCause s i = some c) :
    exec i s = .next (s.record c) := by
  by_cases h : needsInit i = true → s.status.inited = true
  · rw [rejectCause_of_passed_gate i s h] at hc
    rw [exec_of_passed_gate i s h, hc, Option.elim]
  · obtain ⟨hn, hi⟩ : needsInit i = true ∧ s.status.inited = false := by simpa using h
    rw [rejectCause_of_not_inited i s hn hi] at hc
    injection hc with hc
    rw [gatedByInited i hn s hi, hc]

/-- A command with no cause of rejection passes the gate and its own check. -/
theorem passed_of_no_cause (i : Instr) (s : State) (hc : rejectCause s i = none) :
    (needsInit i = true → s.status.inited = true) ∧ ownCheck s i = none := by
  have h : needsInit i = true → s.status.inited = true := fun hn => by
    by_contra hi
    rw [rejectCause_of_not_inited i s hn (by simpa using hi)] at hc
    cases hc
  exact ⟨h, rejectCause_of_passed_gate i s h ▸ hc⟩

theorem exec_of_no_cause (i : Instr) (s : State) (hc : rejectCause s i = none) : exec i s = .next (effect i s) := by
  obtain ⟨h, hown⟩ := passed_of_no_cause i s hc
  rw [exec_of_passed_gate i s h, hown, Option.elim]

/-- All that a command can answer. -/
theorem exec_next (i : Instr) (s t : State) (h : exec i s = .next t) :
    (∃ c, rejectCause s i = some c ∧ t = s.record c) ∨ (rejectCause s i = none ∧ t = effect i s) := by
  cases hc : rejectCause s i with
  | some c =>
    rw [exec_of_cause i s c hc] at h
    injection h with h
    exact .inl ⟨c, rfl, h.symm⟩
  | none =>
    rw [exec_of_no_cause i s hc] at h
    injection h with h
    exact .inr ⟨rfl, h.symm⟩

/-! ### The frame of the effects (R29) -/

theorem effect_S (i : Instr) (s : State)
    (hi : i.opcode ∉ [.init, .clear, .wrs, .wrctr, .adv, .gen, .produce]) : (effect i s).S = s.S := by
  cases i with
  | init | clear | wrs | wrctr | adv | gen | produce => simp [Instr.opcode] at hi
  | _ => simp [effect]

theorem effect_W (i : Instr) (s : State)
    (hi : i.opcode ∉ [.init, .clear, .ldw, .wrw, .qr, .colr, .diagr, .perm, .ff, .gen, .produce]) :
    (effect i s).W = s.W := by
  cases i with
  | init | clear | ldw | wrw | qr | colr | diagr | perm | ff | gen | produce => simp [Instr.opcode] at hi
  | _ => simp [effect]

theorem effect_B (i : Instr) (s : State) (hi : i.opcode ∉ [.init, .clear, .ser, .gen, .produce]) :
    (effect i s).B = s.B := by
  cases i with
  | init | clear | ser | gen | produce => simp [Instr.opcode] at hi
  | _ => simp [effect]

theorem effect_pos (i : Instr) (s : State) (hi : i.opcode ∉ [.init, .clear, .ser, .gen, .flush, .produce]) :
    (effect i s).pos = s.pos := by
  cases i with
  | init | clear | ser | gen | flush | produce => simp [Instr.opcode] at hi
  | _ => simp [effect]

theorem effect_respq (i : Instr) (s : State) (hi : i.opcode ∉ [.rds, .rdw, .rdctr, .rdstat]) :
    (effect i s).respq = s.respq := by
  cases i with
  | rds | rdw | rdctr | rdstat => simp [Instr.opcode] at hi
  | produce m a l => rw [effect, (produce_keeps m a.toNat l.toNat s).rest]
  | _ => simp [effect]

theorem effect_dmem (i : Instr) (s : State) (hi : i.opcode ≠ .produce) : (effect i s).dmem = s.dmem := by
  cases i with
  | produce => simp [Instr.opcode] at hi
  | _ => simp [effect]

theorem effect_dmemSize (i : Instr) (s : State) : (effect i s).dmemSize = s.dmemSize := by
  cases i with
  | produce m a l => exact (produce_keeps m a.toNat l.toNat s).dmemSize
  | _ => simp [effect]

theorem effect_parse (i : Instr) (s : State) : (effect i s).parse = s.parse := by
  cases i with
  | produce m a l => rw [effect, (produce_keeps m a.toNat l.toNat s).rest]
  | _ => simp [effect]

theorem effect_input (i : Instr) (s : State) : (effect i s).input = s.input := by
  cases i with
  | produce m a l => rw [effect, (produce_keeps m a.toNat l.toNat s).rest]
  | _ => simp [effect]

theorem effect_cfg (i : Instr) (s : State) (hi : i.opcode ≠ .init) : (effect i s).cfg = s.cfg := by
  cases i with
  | init => simp [Instr.opcode] at hi
  | produce m a l => exact (produce_keeps m a.toNat l.toNat s).cfg
  | _ => simp [effect]

theorem effect_status (i : Instr) (s : State) (hi : i.opcode ∉ [.init, .clrerr]) :
    (effect i s).status = s.status := by
  cases i with
  | init | clrerr => simp [Instr.opcode] at hi
  | produce m a l => exact (produce_keeps m a.toNat l.toNat s).status
  | _ => simp [effect]

/-- No effect but CLRERR's touches the error record. -/
theorem effect_errorRecord (i : Instr) (s : State) (hi : i ≠ .clrerr) :
    (effect i s).status.err = s.status.err ∧ (effect i s).status.errcode = s.status.errcode := by
  cases i with
  | init => exact ⟨rfl, rfl⟩
  | clrerr => exact absurd rfl hi
  | _ => rw [effect_status _ s (by simp [Instr.opcode])]; exact ⟨rfl, rfl⟩

end Sys2Proof.Machine

namespace Sys2Proof.Machine.Execution

/-- Settles O14: a command answers the record of its first cause, or its effect, which leaves the error record to CLRERR. -/
theorem execRejectsExactlyForItsFirstCause : Obligations.ExecRejectsExactlyForItsFirstCause :=
  ⟨exec_of_cause, fun i s hc hi => ⟨effect i s, exec_of_no_cause i s hc, effect_errorRecord i s hi⟩,
    fun s => ⟨s.clearRecord, rfl, s.clearRecord_err, s.clearRecord_errcode⟩⟩

/-- Settles O56: a rejection writes STATUS only, and each effect has its frame. -/
theorem commandsWriteOnlyTheirState : Obligations.CommandsWriteOnlyTheirState := by
  intro i s t h
  obtain ⟨c, -, rfl⟩ | ⟨-, rfl⟩ := exec_next i s t h
  · exact ⟨fun _ => rfl, fun _ => rfl, fun _ => rfl, fun _ => rfl, fun _ => rfl, fun _ => rfl, rfl, rfl, rfl⟩
  · exact ⟨effect_S i s, effect_W i s, effect_B i s, effect_pos i s, effect_respq i s, effect_dmem i s,
      effect_dmemSize i s, effect_parse i s, effect_input i s⟩

end Sys2Proof.Machine.Execution
end

section
/-! PROOFS. The invariant (10_state.md R33, R37, 40_permutation.md R107): what each effect, the parser and the host's actions
keep of it; and the single steps of the host and of the idle engine. -/

namespace Sys2Proof.Machine

/-! ### What the parser awaits (R37) -/

/-- Inside a command the parser awaits a word of it (R37). -/
def Parse.Awaits (p : Parse) : Prop :=
  ∀ h got, p = .operands h got → got.length < operandCountOf h

theorem awaits_header : Parse.Awaits .header := fun _ _ h => by cases h

/-- Words that complete no command leave the parser awaiting another. -/
theorem awaits_parseOf (ws : List Word) (hd : decode ws = .incomplete) : Parse.Awaits (parseOf ws) := by
  intro h got hp
  cases ws with
  | nil => cases hp
  | cons w ws =>
    injection hp with hw hgot
    rw [← hw, ← hgot]
    exact (decode_cons_incomplete w ws).mp hd

theorem parseInput_waiting_awaits (xs : List Input) (p q : Parse) (rest : List Input) (hp : Parse.Awaits p)
    (h : parseInput p xs = .waiting q rest) : Parse.Awaits q := by
  induction xs generalizing p with
  | nil => injection h with h; exact h ▸ hp
  | cons x xs ih =>
    cases x with
    | word w =>
      rw [parseInput] at h
      split at h
      · cases h
      · cases h
      next hd => exact ih _ (awaits_parseOf _ hd) h
    | dmemWrite | takeResponse | reset => injection h with h; exact h ▸ hp

end Sys2Proof.Machine

namespace Sys2Proof

open Sys2Proof.Machine

/-! ### Commands -/

theorem Inv.effect (i : Instr) (s : State) (h : Inv s) (hc : rejectCause s i = none) : Inv (effect i s) := by
  obtain ⟨-, hown⟩ := passed_of_no_cause i s hc
  cases i with
  | init l r =>
    have hr : r.toNat ∈ [8, 12, 20] := by
      by_contra hr
      rw [ownCheck, if_neg hr] at hown
      cases hown
    exact ⟨h.dmem_wf, h.dmem_inside, fun _ => (roundsAccepted_iff r).mpr hr, h.errcode_zero, h.errcode_code,
      h.parse_awaits⟩
  | clrerr =>
    exact ⟨h.dmem_wf, h.dmem_inside, h.rounds_legal, fun _ => rfl, fun he => by simp [Machine.effect] at he,
      h.parse_awaits⟩
  | produce m a l =>
    have hkeep := produce_keeps m a.toNat l.toNat s
    have hr : a.toNat + l.toNat ≤ s.dmemSize.val := by
      by_contra hr
      rw [ownCheck, if_pos (not_le.mp hr)] at hown
      cases hown
    have hwf := produce_dmem Memory.wf m a.toNat l.toNat s (fun d x ks _ _ => combineBytes_wf m ks d x) h.dmem_wf
    have hinside := produce_dmem (Memory.inside · s.dmemSize.val) m a.toNat l.toNat s
      (fun d x ks _ hx => combineBytes_inside m ks d x _ (by omega)) h.dmem_inside
    have hrest : Inv ((produce m a.toNat l.toNat s).setDmem s.dmem) :=
      h.congr s _ rfl hkeep.dmemSize hkeep.status hkeep.cfg (effect_parse (.produce m a l) s)
    exact { hrest with dmem_wf := hwf, dmem_inside := by rw [effect_dmemSize]; exact hinside }
  | _ =>
    exact h.congr s _ (effect_dmem _ s (by simp [Instr.opcode])) (effect_dmemSize _ s)
      (effect_status _ s (by simp [Instr.opcode])) (effect_cfg _ s (by simp [Instr.opcode])) (effect_parse _ s)

theorem Inv.exec (i : Instr) (s t : State) (h : Inv s) (ht : exec i s = .next t) : Inv t := by
  obtain ⟨c, -, rfl⟩ | ⟨hc, rfl⟩ := exec_next i s t ht
  · exact h.record s c
  · exact h.effect i s hc

/-! ### The parser's position and the host's actions -/

/-- The invariant does not speak of RESPQ and of the host's pending actions, and any parser position that awaits a word meets
it. -/
theorem Inv.setPort {s : State} (h : Inv s) (p : Parse) (q : List Word) (xs : List Input) (hp : Parse.Awaits p) :
    Inv { s with parse := p, respq := q, input := xs } :=
  ⟨h.dmem_wf, h.dmem_inside, h.rounds_legal, h.errcode_zero, h.errcode_code, hp⟩

/-- A hardware reset keeps DMEM and meets the rest by the values of the reset state. -/
theorem Inv.hardReset (s : State) (h : Inv s) : Inv (hardReset s) :=
  ⟨h.dmem_wf, h.dmem_inside, fun hi => by simp [State.reset] at hi, fun _ => rfl, fun he => by simp [State.reset] at he,
    awaits_header⟩

theorem Inv.dmemWrite (s : State) (a : Nat) (v : Byte) (h : Inv s) (ha : a < s.dmemSize.val) :
    Inv (s.setDmem (Memory.write s.dmem a v)) :=
  { h with
    dmem_wf := Memory.write_wf s.dmem a v h.dmem_wf
    dmem_inside := Memory.write_inside s.dmem a v _ ha h.dmem_inside }

end Sys2Proof

namespace Sys2Proof.Machine.Invariant

/-- Settles O53: by what a step can do, each action keeps each part of the invariant. -/
theorem everyStepKeepsTheInvariant : Obligations.EveryStepKeepsTheInvariant := by
  intro s t h hstep
  obtain ⟨-, -, rfl⟩ | ⟨i, rest, -, hx⟩ | ⟨c, rest, -, rfl⟩ | ⟨p, rest, hp, rfl⟩ | ⟨a, v, rest, -, ha, rfl⟩
    | ⟨w, q, rest, -, -, rfl⟩ | ⟨rest, -, rfl⟩ := step_cases s t hstep
  · exact h
  · exact (h.setPort .header s.respq rest awaits_header).exec i _ t hx
  · exact (h.setPort .header s.respq rest awaits_header).record _ c
  · exact h.setPort p s.respq rest (parseInput_waiting_awaits s.input s.parse p rest h.parse_awaits hp)
  · exact (h.setPort s.parse s.respq rest h.parse_awaits).dmemWrite _ a.toNat v ha
  · exact h.setPort s.parse q rest h.parse_awaits
  · exact (h.setPort s.parse s.respq rest h.parse_awaits).hardReset _

/-- Settles O54: the reset state lists no byte of DMEM, records no error and awaits no operand word. -/
theorem resetMeetsTheInvariant : Obligations.ResetMeetsTheInvariant :=
  ⟨⟨.nil, by simp [State.reset]⟩, by simp [State.reset], fun hi => by simp [State.reset] at hi, fun _ => rfl,
    fun he => by simp [State.reset] at he, awaits_header⟩

/-- Settles O52: canonical memories list exactly what they read. -/
theorem canonicalMemoriesAreEqualByTheirBytes : Obligations.CanonicalMemoriesAreEqualByTheirBytes :=
  Memory.eq_of_read_eq

/-- Settles O12: the fields of the reset state. -/
theorem resetStateHasTheSpecsValues : Obligations.ResetStateHasTheSpecsValues :=
  ⟨rfl, rfl, rfl, rfl, rfl⟩

/-- Settles O9: with nothing to do and at a header boundary the step is the idle one. -/
theorem idleEngineKeepsAllState : Obligations.IdleEngineKeepsAllState := by
  intro s hp hi
  rw [step_of_nil s hi, runIdle, hp]

/-- Settles O10: each action of the host has its own step, which does not look at the parser. -/
theorem hostActionsBetweenCommands : Obligations.HostActionsBetweenCommands := by
  refine ⟨fun s a v rest hwf hi ha => ?_, fun s a v rest hi ha => ?_, fun s w q rest hi hq => ?_, fun s rest hi => ?_⟩
  · have hread : ∀ b, Memory.read (Memory.write s.dmem a.toNat v) b = if b = a.toNat then v else Memory.read s.dmem b :=
      fun b => Memory.read_write s.dmem a.toNat b v hwf
    refine ⟨State.setDmem { s with input := rest } (Memory.write s.dmem a.toNat v), ?_, ?_, fun b hb => ?_, rfl⟩
    · rw [step_of_dmemWrite s a v rest hi, dmemWriteByHost, if_pos ha]
    · rw [State.setDmem_dmem, hread, if_pos rfl]
    · rw [State.setDmem_dmem, hread, if_neg hb]
  · rw [step_of_dmemWrite s a v rest hi, dmemWriteByHost, if_neg ha]
  · rw [step_of_takeResponse s rest hi]
    simp only [takeResponseByHost, hq]
  · exact ⟨_, step_of_reset s rest hi, rfl, rfl, rfl⟩

end Sys2Proof.Machine.Invariant
end

section
/-! PROOFS. Two engines side by side: a relation that the commands keep is kept by every step and every run; the relation of
two engines that differ in unspecified reset values only (10_state.md R39, 60_exceptions.md R217). -/

namespace Sys2Proof.Machine

/-! ### Runs by their first step -/

theorem run_succ_of_next (M : Host.Core) (k : Nat) (s t : M.State) (h : M.step s = .next t) :
    M.run (k + 1) s = M.run k t := by
  rw [Host.Core.run, h]

theorem run_succ_of_fault (M : Host.Core) (k : Nat) (s : M.State) (r : M.Fault) (h : M.step s = .fault r) :
    M.run (k + 1) s = .fault r := by
  rw [Host.Core.run, h]

theorem run_succ_of_refused (M : Host.Core) (k : Nat) (s : M.State) (r : M.Refusal) (h : M.step s = .refused r) :
    M.run (k + 1) s = .refused r := by
  rw [Host.Core.run, h]

/-! ### Relations that every step keeps -/

/-- What a relation of two engines needs so that every step keeps it: related engines show no difference in what a step looks
at outside the commands, and the same change of both keeps them related. -/
structure StepKeeps (R : State → State → Prop) : Prop where
  visible : ∀ {s t}, R s t → t.input = s.input ∧ t.parse = s.parse ∧ t.respq = s.respq ∧ t.dmem = s.dmem
    ∧ t.dmemSize = s.dmemSize
  setParse : ∀ {s t}, R s t → ∀ p : Parse, R { s with parse := p } { t with parse := p }
  setInput : ∀ {s t}, R s t → ∀ xs : List Input, R { s with input := xs } { t with input := xs }
  setRespq : ∀ {s t}, R s t → ∀ q : List Word, R { s with respq := q } { t with respq := q }
  setDmem : ∀ {s t}, R s t → ∀ m : Memory, R (s.setDmem m) (t.setDmem m)
  record : ∀ {s t}, R s t → ∀ c : RejectCode, R (s.record c) (t.record c)
  hardReset : ∀ {s t}, R s t → R (hardReset s) (hardReset t)
  exec : ∀ {s t}, R s t → ∀ i : Instr, RelatedOutcomes R (exec i s) (exec i t)

section

variable {R : State → State → Prop}

theorem StepKeeps.runIdle {s t : State} (h : StepKeeps R) (hst : R s t) :
    RelatedOutcomes R (runIdle s) (runIdle t) := by
  obtain ⟨-, hp, -⟩ := h.visible hst
  rw [Machine.runIdle, Machine.runIdle, hp]
  split
  · exact hst
  · exact rfl

theorem StepKeeps.runParsed {s t : State} (h : StepKeeps R) (hst : R s t) (p : Parsed) :
    RelatedOutcomes R (runParsed s p) (runParsed t p) := by
  cases p with
  | command i rest => exact h.exec (h.setParse (h.setInput hst rest) .header) i
  | rejected c rest => exact h.record (h.setParse (h.setInput hst rest) .header) c
  | waiting p rest => exact h.setParse (h.setInput hst rest) p

theorem StepKeeps.dmemWriteByHost {s t : State} (h : StepKeeps R) (hst : R s t) (a : Word) (v : Byte) :
    RelatedOutcomes R (dmemWriteByHost a v s) (dmemWriteByHost a v t) := by
  obtain ⟨-, -, -, hm, hz⟩ := h.visible hst
  rw [Machine.dmemWriteByHost, Machine.dmemWriteByHost, hm, hz]
  split
  · exact h.setDmem hst _
  · exact rfl

theorem StepKeeps.takeResponseByHost {s t : State} (h : StepKeeps R) (hst : R s t) :
    RelatedOutcomes R (takeResponseByHost s) (takeResponseByHost t) := by
  obtain ⟨-, -, hq, -⟩ := h.visible hst
  rw [Machine.takeResponseByHost, Machine.takeResponseByHost, hq]
  split
  · exact rfl
  · exact h.setRespq hst _

theorem StepKeeps.step {s t : State} (h : StepKeeps R) (hst : R s t) : RelatedOutcomes R (step s) (step t) := by
  obtain ⟨hi, hp, -⟩ := h.visible hst
  match hx : s.input with
  | [] =>
    rw [step_of_nil s hx, step_of_nil t (hi.trans hx)]
    exact h.runIdle hst
  | .word w :: rest =>
    rw [step_of_word s w rest hx, step_of_word t w rest (hi.trans hx), hi, hp]
    exact h.runParsed hst _
  | .dmemWrite a v :: rest =>
    rw [step_of_dmemWrite s a v rest hx, step_of_dmemWrite t a v rest (hi.trans hx)]
    exact h.dmemWriteByHost (h.setInput hst rest) a v
  | .takeResponse :: rest =>
    rw [step_of_takeResponse s rest hx, step_of_takeResponse t rest (hi.trans hx)]
    exact h.takeResponseByHost (h.setInput hst rest)
  | .reset :: rest =>
    rw [step_of_reset s rest hx, step_of_reset t rest (hi.trans hx)]
    exact h.hardReset (h.setInput hst rest)

/-- A relation that every step keeps is kept by runs of any length. -/
theorem StepKeeps.run (h : StepKeeps R) (k : Nat) {s t : State} (hst : R s t) :
    RelatedOutcomes R (core.run k s) (core.run k t) := by
  induction k generalizing s t with
  | zero => exact hst
  | succ k ih =>
    have hstep := h.step hst
    match hs : Machine.step s, ht : Machine.step t, hstep with
    | .next s', .next t', hstep =>
      have hruns := congrArg₂ (RelatedOutcomes R) (run_succ_of_next core k s s' hs) (run_succ_of_next core k t t' ht)
      exact hruns.mpr (ih hstep)
    | .fault r, .fault q, hstep =>
      have hruns := congrArg₂ (RelatedOutcomes R) (run_succ_of_fault core k s r hs) (run_succ_of_fault core k t q ht)
      exact hruns.mpr hstep
    | .refused r, .refused q, hstep =>
      have hruns := congrArg₂ (RelatedOutcomes R) (run_succ_of_refused core k s r hs)
        (run_succ_of_refused core k t q ht)
      exact hruns.mpr hstep

end

/-- A reflexive relation holds of an outcome and itself. -/
theorem relatedOutcomes_refl (R : State → State → Prop) (hR : ∀ s, R s s) (o : Host.Outcome State Fault Refusal) :
    RelatedOutcomes R o o := by
  cases o with
  | next s => exact hR s
  | fault r => exact rfl
  | refused r => exact rfl

/-- While INITED = 0 the status image shows STATUS only (R34). -/
theorem statusImage_of_not_inited {s t : State} (ht : t.status = s.status) (h : s.status.inited = false) :
    statusImage t = statusImage s := by
  simp [statusImage, ht, h]

end Sys2Proof.Machine

namespace Sys2Proof

open Sys2Proof.Machine

/-! ### Unspecified reset values (R39, R217) -/

theorem sameButHiddenReset_refl (s : State) : SameButHiddenReset s s := ⟨rfl, fun _ => rfl⟩

theorem SameButHiddenReset.status_eq {s t : State} (h : SameButHiddenReset s t) : t.status = s.status := by rw [h.1]

theorem SameButHiddenReset.record {s t : State} (h : SameButHiddenReset s t) (c : RejectCode) :
    SameButHiddenReset (s.record c) (t.record c) :=
  ⟨congrArg (State.record · c) h.1, fun hi => by rw [h.2 hi]⟩

/-- Before INIT the commands that are not gated do not read the hidden registers. -/
theorem SameButHiddenReset.exec_of_not_gated {s t : State} (h : SameButHiddenReset s t) (hi : s.status.inited = false)
    (i : Instr) (hn : needsInit i = false) : RelatedOutcomes SameButHiddenReset (exec i s) (exec i t) := by
  have hrest := h.1
  cases i with
  | nop => exact h
  | init l r =>
    by_cases hr : r.toNat ∈ [8, 12, 20]
    · have heq : construct l r t = construct l r s := (congrArg (construct l r) hrest).trans rfl
      rw [exec_init_of_accepted l r s hr, exec_init_of_accepted l r t hr, heq]
      exact sameButHiddenReset_refl _
    · rw [exec_init_of_rejected l r s hr, exec_init_of_rejected l r t hr]
      exact h.record .badRounds
  | clear => exact ⟨congrArg (effect .clear) hrest, fun h' => by simp [hi] at h'⟩
  | rdstat =>
    have himage : statusImage t = statusImage s := statusImage_of_not_inited h.status_eq hi
    exact ⟨by rw [himage]; exact congrArg (State.respond · (statusImage s)) hrest, fun h' => by simp [hi] at h'⟩
  | clrerr => exact ⟨congrArg State.clearRecord hrest, fun h' => by simp [hi] at h'⟩
  | _ => cases hn

theorem SameButHiddenReset.exec {s t : State} (h : SameButHiddenReset s t) (i : Instr) :
    RelatedOutcomes SameButHiddenReset (exec i s) (exec i t) := by
  cases hi : s.status.inited with
  | true =>
    rw [h.2 hi]
    exact relatedOutcomes_refl _ sameButHiddenReset_refl _
  | false =>
    cases hn : needsInit i with
    | true =>
      rw [gatedByInited i hn s hi, gatedByInited i hn t (h.status_eq ▸ hi)]
      exact h.record .notInit
    | false => exact h.exec_of_not_gated hi i hn

theorem sameButHiddenReset_stepKeeps : StepKeeps SameButHiddenReset where
  visible := fun ⟨h, _⟩ => by rw [h]; exact ⟨rfl, rfl, rfl, rfl, rfl⟩
  setParse := fun ⟨h, h'⟩ p => ⟨congrArg (fun u : State => { u with parse := p }) h, fun hi => by rw [h' hi]⟩
  setInput := fun ⟨h, h'⟩ xs => ⟨congrArg (fun u : State => { u with input := xs }) h, fun hi => by rw [h' hi]⟩
  setRespq := fun ⟨h, h'⟩ q => ⟨congrArg (fun u : State => { u with respq := q }) h, fun hi => by rw [h' hi]⟩
  setDmem := fun ⟨h, h'⟩ m => ⟨congrArg (State.setDmem · m) h, fun hi => by rw [h' hi]⟩
  record := SameButHiddenReset.record
  hardReset := fun {s t} ⟨h, _⟩ => by
    have heq : hardReset t = hardReset s := (congrArg Machine.hardReset h).trans rfl
    exact heq ▸ sameButHiddenReset_refl _
  exec := SameButHiddenReset.exec

end Sys2Proof

namespace Sys2Proof.Machine.ResetAndHazards

/-- Settles O57: every command keeps the relation: before INIT it is gated or reads no hidden register, and an accepted INIT
writes them all. -/
theorem unspecifiedResetValuesAreNeverObserved : Obligations.UnspecifiedResetValuesAreNeverObserved :=
  fun k _ _ h => sameButHiddenReset_stepKeeps.run k h

end Sys2Proof.Machine.ResetAndHazards
end

section
/-! PROOFS. Block generation and counters over many commands (40_permutation.md R103, 41_block_core.md R138, R140): the
alternation of rounds, a list of GENs, and the counter at a value of its own. -/

namespace Sys2Proof.Machine

/-! ### The permutation (R103) -/

theorem permF_of_even (X : Words) (k : Nat) : permF X (2 * k + 1) = colrF (permF X (2 * k)) := by
  rw [permF_succ, if_pos (Nat.mul_mod_right 2 k)]

theorem permF_of_odd (X : Words) (k : Nat) : permF X (2 * k + 2) = diagrF (permF X (2 * k + 1)) := by
  rw [permF_succ, if_neg (by omega)]

theorem permF_doubleRounds (X : Words) (m : Nat) : permF X (2 * m) = (fun Y => diagrF (colrF Y))^[m] X := by
  induction m with
  | zero => rfl
  | succ m ih => rw [Nat.mul_succ, permF_of_odd, permF_of_even, ih, Function.iterate_succ_apply']

/-! ### A list of GENs (R136, R138) -/

theorem exec_gen (s : State) (h : s.status.inited = true) : exec .gen s = .next (refill s 0) :=
  whenInited_of_inited s _ h

/-- The engine after `k` GENs. -/
def genTimes (k : Nat) (s : State) : State :=
  (refill · 0)^[k] s

theorem genTimes_succ (k : Nat) (s : State) : genTimes (k + 1) s = refill (genTimes k s) 0 :=
  Function.iterate_succ_apply' _ k s

theorem runCommands_replicate_gen (k : Nat) (s : State) (h : s.status.inited = true) :
    runCommands (List.replicate k .gen) s = .next (genTimes k s) := by
  induction k generalizing s with
  | zero => rfl
  | succ k ih => rw [List.replicate_succ, runCommands_cons _ _ _ _ (exec_gen s h), ih (refill s 0) h]; rfl

theorem AtCounter.genTimes (s : State) (k : Nat) : AtCounter s (counterOf s + k) (genTimes k s) := by
  induction k with
  | zero => exact .refl s
  | succ k ih =>
    rw [genTimes_succ]
    exact ⟨ih.blockFn.cfg, ih.blockFn.words⟩

/-- No word but the counter words of the layout depends on the counter. -/
theorem wordsAtCounter_of_ne (s : State) (v : Nat) (j : Index) (h : j ≠ 12) (h' : s.cfg.layout = .djb → j ≠ 13) :
    (wordsAtCounter s v)[j] = s.S[j] := by
  unfold wordsAtCounter
  split
  next hl => exact (words_set _ 13 j _).trans ((if_neg (h' hl)).trans ((words_set s.S 12 j _).trans (if_neg h)))
  · exact (words_set s.S 12 j _).trans (if_neg h)

end Sys2Proof.Machine

namespace Sys2Proof.Machine.Permutation

/-- Settles O20: rounds by their parity, and two rounds at a time. -/
theorem permutationAlternatesRounds : Obligations.PermutationAlternatesRounds := fun X =>
  ⟨permF_zero X, permF_of_even X, permF_of_odd X, permF_doubleRounds X⟩

end Sys2Proof.Machine.Permutation

namespace Sys2Proof.Machine.BlockCore

/-- Settles O23: the block that GEN leaves is a function of S and ROUNDS. -/
theorem blockDependsOnWordsAndRoundsOnly : Obligations.BlockDependsOnWordsAndRoundsOnly := by
  intro s t hs ht hS hr
  refine ⟨_, _, exec_gen s hs, exec_gen t ht, ?_, ?_⟩
  · rw [refill_B, refill_B, hS, hr]
  · rw [refill_W, refill_W, hS, hr]

/-- Settles O25: each GEN moves the counter on by one, and the last block is that of the counter before it. -/
theorem counterCountsGeneratedBlocks : Obligations.CounterCountsGeneratedBlocks := by
  intro s k h
  have hat := AtCounter.genTimes s k
  have hword : ∀ j : Index, j ≠ 12 → (s.cfg.layout = .djb → j ≠ 13) → (genTimes k s).S[j] = s.S[j] :=
    fun j h12 h13 => by rw [hat.words, wordsAtCounter_of_ne s _ j h12 h13]
  refine ⟨genTimes k s, runCommands_replicate_gen k s h, hat.counterOf_eq, fun hk => ?_, fun j hj => ?_, fun hl => ?_⟩
  · obtain ⟨k, rfl⟩ := Nat.exists_eq_succ_of_ne_zero hk.ne'
    have hlast := (AtCounter.genTimes s k).blockWords_eq
    rw [Nat.succ_sub_one, genTimes_succ, refill_B, refill_W, hlast]
    exact ⟨rfl, rfl⟩
  · exact hword j (by rintro rfl; revert hj; decide) (fun _ => by rintro rfl; revert hj; decide)
  · exact hword 13 (by decide) (by simp [hl])

end Sys2Proof.Machine.BlockCore
end

section
/-! PROOFS. PRODUCE as a walk along one stream (42_streaming.md R156, R158, R159): how far a PRODUCE goes from any state, the
bytes it hands out, PRODUCEs one after another, and what a stale buffer and W can reach. -/

namespace Sys2Proof.Machine

/-! ### Blocks generated past the buffer -/

theorem generate_add (k j : Nat) (s : State) : generate (k + j) s = generate k (generate j s) :=
  Function.iterate_add_apply _ k j s

/-- Block generation reads neither the buffer nor the cursor. -/
theorem generate_setBuffer (k : Nat) (s : State) (b : Block) (p : Fin 65) :
    generate k (s.setBuffer b p) = (generate k s).setBuffer b p := by
  induction k generalizing s with
  | zero => rfl
  | succ k ih => exact ih (blockFn s).2

@[simp] theorem State.setBuffer_setBuffer (s : State) (b c : Block) (p q : Fin 65) :
    (s.setBuffer b p).setBuffer c q = s.setBuffer c q := rfl

theorem refill_setBuffer (s : State) (b : Block) (p q : Fin 65) : refill (s.setBuffer b p) q = refill s q := rfl

theorem refill_generate (k : Nat) (s : State) (p : Fin 65) :
    refill (generate k s) p = (generate (k + 1) s).setBuffer (blockFn (generate k s)).1 p := by
  rw [Nat.add_comm k, generate_add]
  rfl

theorem blockFn_generate (k : Nat) (s : State) : (blockFn (generate k s)).1 = blockAt s (counterOf s + k) := by
  rw [blockFn_bytes, ((AtCounter.refl s).generate k).blockWords_eq, blockAt]

/-! ### How far a PRODUCE goes -/

/-- What the buffer holds once `g` blocks have been generated and the last of them is in use. -/
def lastBlock (s : State) : Nat → Block
  | 0 => s.B
  | g + 1 => blockAt s (counterOf s + g)

/-- From `s` the engine has handed out `n` bytes and generated `g` blocks for them: what was buffered first, and no
block before a byte of it was needed. -/
structure StreamedFrom (s : State) (n g : Nat) (t : State) : Prop where
  position : t.pos.val + 64 * g = s.pos.val + n
  started : 0 < g → 0 < t.pos.val
  buffer : t.pos.val < 64 → t.B = lastBlock s g
  rest : t = (generate g s).setBuffer t.B t.pos

theorem StreamedFrom.counter {s t : State} {n g : Nat} (h : StreamedFrom s n g t) :
    AtCounter s (counterOf s + g) t := by
  obtain ⟨hcfg, hwords⟩ := (AtCounter.refl s).generate g
  rw [h.rest]
  exact ⟨hcfg, hwords⟩

theorem advancePos_eq_setBuffer (len : Nat) (s : State) : advancePos len s = s.setBuffer s.B (advancePos len s).pos := rfl

theorem streamedFrom_advanceStream (len : Nat) (s : State) : ∃ g, StreamedFrom s len g (advanceStream len s) := by
  obtain ⟨q, hq⟩ : ∃ q, (len - drainCount s len) / 64 = q := ⟨_, rfl⟩
  obtain ⟨r, hr⟩ : ∃ r : Fin 64, ⟨(len - drainCount s len) % 64, Nat.mod_lt _ (by decide)⟩ = r := ⟨_, rfl⟩
  have hrval : (len - drainCount s len) % 64 = r.val := congrArg Fin.val hr
  have hd := drainCount_le s len
  have hpos : (advancePos len s).pos.val = s.pos.val + drainCount s len := rfl
  have hmin : drainCount s len = min len (64 - s.pos.val) := rfl
  rw [advanceStream, hq, hr, advancePos_eq_setBuffer, generate_setBuffer, bufferTail]
  split
  next h0 =>
    have hr0 : r.val = 0 := congrArg Fin.val h0
    refine ⟨q, ?_, ?_, fun hlt => ?_, rfl⟩
    · rw [State.setBuffer_pos]; omega
    · rw [State.setBuffer_pos]; omega
    · rw [State.setBuffer_pos] at hlt
      have hq0 : q = 0 := by omega
      rw [hq0]
      rfl
  next h0 =>
    have hr0 : r.val ≠ 0 := fun h => h0 (Fin.ext h)
    rw [refill_setBuffer, refill_generate]
    refine ⟨q + 1, ?_, fun _ => Nat.pos_of_ne_zero hr0, fun _ => blockFn_generate q s, rfl⟩
    show r.val + 64 * (q + 1) = s.pos.val + len
    omega

theorem StreamedFrom.trans {s t u : State} {n m g k : Nat} (h : StreamedFrom s n g t) (h' : StreamedFrom t m k u) :
    StreamedFrom s (n + m) (k + g) u := by
  have hp := h.position
  have hp' := h'.position
  have hst := h.started
  have hst' := h'.started
  have hgen : ∀ j, generate j t = (generate (j + g) s).setBuffer t.B t.pos := fun j => by
    rw [generate_add, ← generate_setBuffer, ← h.rest]
  refine ⟨by omega, fun h0 => by omega, fun hlt => ?_, ?_⟩
  · rw [h'.buffer hlt]
    cases k with
    | zero => rw [Nat.zero_add, ← h.buffer (by omega)]; rfl
    | succ k => rw [lastBlock, ← blockFn_generate, hgen, Nat.add_right_comm, lastBlock, ← blockFn_generate]; rfl
  · rw [h'.rest, hgen]; rfl

/-- How far a PRODUCE goes fixes the state but for a stale buffer. -/
theorem StreamedFrom.unique {s t u : State} {n g k : Nat} (h : StreamedFrom s n g t) (h' : StreamedFrom s n k u) :
    SameButStaleBuffer t u := by
  have hp := h.position
  have hp' := h'.position
  have hst := h.started
  have hst' := h'.started
  have hgk : k = g := by omega
  subst hgk
  have hpos : u.pos = t.pos := Fin.ext (by omega)
  refine ⟨?_, fun hlt => by rw [h.buffer hlt, h'.buffer (hpos ▸ hlt)]⟩
  rw [h'.rest, hpos, h.rest]
  rfl

/-! ### The bytes of the stream -/

/-- Byte `i` of the stream from a state on: what is buffered, then the keystream. -/
def streamByte (s : State) (i : Nat) : Byte :=
  if h : s.pos.val + i < 64 then s.B[s.pos.val + i] else keystreamByte s (s.pos.val + i - 64)

theorem producedBytes_eq_map (s : State) (len : Nat) : producedBytes s len = (List.range len).map (streamByte s) := by
  have hd := drainCount_le s len
  have hmin : drainCount s len = min len (64 - s.pos.val) := rfl
  refine List.ext_getElem (by simp [producedBytes_length]) fun i hi _ => ?_
  rw [producedBytes_length] at hi
  rw [List.getElem_map, List.getElem_range]
  simp only [producedBytes, List.getElem_append, drain_length]
  split
  next hlt =>
    rw [streamByte, dif_pos (by omega)]
    simp
  next hge =>
    have hrest : i - drainCount s len = s.pos.val + i - 64 := by omega
    rw [streamByte, dif_neg (by omega)]
    simp [keystreamBytes, hrest]

theorem keystreamByte_in_block (s : State) (q r : Nat) (h : r < 64) :
    keystreamByte s (64 * q + r) = (blockAt s (counterOf s + q))[r] := by
  have hdiv : (64 * q + r) / 64 = q := by omega
  have hmod : (64 * q + r) % 64 = r := by omega
  simp only [keystreamByte, hdiv, hmod]

theorem AtCounter.keystreamByte_eq {s t : State} {g : Nat} (h : AtCounter s (counterOf s + g) t) (i : Nat) :
    keystreamByte t i = keystreamByte s (64 * g + i) := by
  have hbytes := h.keystreamBytes_eq (i + 1)
  rw [keystreamBytes_add, keystreamBytes_add] at hbytes
  simpa [keystreamBytes] using List.append_inj_right' hbytes (by simp)

/-- Byte `i` from a later state on is byte `n + i` from the first. -/
theorem StreamedFrom.streamByte_eq {s t : State} {n g : Nat} (h : StreamedFrom s n g t) (i : Nat) :
    streamByte t i = streamByte s (n + i) := by
  have hp := h.position
  have hst := h.started
  unfold streamByte
  split
  next hlt =>
    cases g with
    | zero =>
      have hidx : t.pos.val + i = s.pos.val + (n + i) := by omega
      simp only [h.buffer (by omega), lastBlock, hidx]
      rw [dif_pos (by omega)]
    | succ g =>
      have hidx : s.pos.val + (n + i) - 64 = 64 * g + (t.pos.val + i) := by omega
      rw [dif_neg (by omega), hidx, keystreamByte_in_block s g _ hlt]
      simp only [h.buffer (by omega), lastBlock]
  next hge =>
    have hidx : s.pos.val + (n + i) - 64 = 64 * g + (t.pos.val + i - 64) := by omega
    rw [dif_neg (by omega), hidx, h.counter.keystreamByte_eq]

theorem producedBytes_add (s : State) (m n : Nat) :
    producedBytes s (m + n) = producedBytes s m ++ producedBytes (advanceStream m s) n := by
  obtain ⟨g, h⟩ := streamedFrom_advanceStream m s
  have hbyte : streamByte (advanceStream m s) = fun i => streamByte s (m + i) := funext h.streamByte_eq
  rw [producedBytes_eq_map, producedBytes_eq_map, producedBytes_eq_map, List.range_add, List.map_append, List.map_map, hbyte]
  rfl

/-! ### PRODUCEs one after another (R156) -/

theorem sameButStaleBuffer_refl (s : State) : SameButStaleBuffer s s := ⟨rfl, fun _ => rfl⟩

theorem sameButStaleBuffer_trans {s t u : State} (h : SameButStaleBuffer s t) (h' : SameButStaleBuffer t u) :
    SameButStaleBuffer s u := by
  have hpos : t.pos = s.pos := by rw [h.1]
  refine ⟨?_, fun hlt => by rw [h'.2 (hpos ▸ hlt), h.2 hlt]⟩
  rw [h'.1, h.1]

theorem sameButStaleBuffer_setDmem {s t : State} (h : SameButStaleBuffer s t) (m : Memory) :
    SameButStaleBuffer (s.setDmem m) (t.setDmem m) :=
  ⟨congrArg (State.setDmem · m) h.1, h.2⟩

/-- A PRODUCE in two parts leaves what the whole leaves, but for a stale buffer. -/
theorem produce_add (mode : Mode) (addr m n : Nat) (s : State) :
    SameButStaleBuffer (produce mode addr (m + n) s) (produce mode (addr + m) n (produce mode addr m s)) := by
  have hstream : SameButStaleBuffer (advanceStream (m + n) s) (advanceStream n (advanceStream m s)) := by
    obtain ⟨g, hg⟩ := streamedFrom_advanceStream (m + n) s
    obtain ⟨j, hj⟩ := streamedFrom_advanceStream m s
    obtain ⟨k, hk⟩ := streamedFrom_advanceStream n (advanceStream m s)
    exact hg.unique (hj.trans hk)
  simp only [produce_eq_advanceStream, advanceStream_setDmem, producedBytes_setDmem, State.setDmem_setDmem,
    State.setDmem_dmem, producedBytes_add s m n, combineBytes_append, producedBytes_length]
  exact sameButStaleBuffer_setDmem hstream _

/-- PRODUCEs at consecutive addresses all run, and leave what one PRODUCE of the whole length leaves. At the end of a DMEM
of 2^32 bytes the next address wraps to 0, but then no byte is left. -/
theorem runCommands_chunkCommands (mode : Mode) (lens : List Word) (a : Word) (s : State) (h : s.status.inited = true)
    (hr : a.toNat + (lens.map BitVec.toNat).sum ≤ s.dmemSize.val) :
    ∃ t, runCommands (chunkCommands mode a lens) s = .next t
      ∧ SameButStaleBuffer (produce mode a.toNat (lens.map BitVec.toNat).sum s) t := by
  induction lens generalizing a s with
  | nil =>
    refine ⟨s, rfl, ?_⟩
    rw [List.map_nil, List.sum_nil, produce_zero]
    exact sameButStaleBuffer_refl s
  | cons l lens ih =>
    rw [List.map_cons, List.sum_cons] at hr ⊢
    have hkeep := produce_keeps mode a.toNat l.toNat s
    have hle : (a + l).toNat ≤ a.toNat + l.toNat := by rw [BitVec.toNat_add]; exact Nat.mod_le _ _
    obtain ⟨t, ht, hsame⟩ := ih (a + l) (produce mode a.toNat l.toNat s) (hkeep.status ▸ h)
      (by rw [hkeep.dmemSize]; omega)
    refine ⟨t, ?_, sameButStaleBuffer_trans (produce_add mode a.toNat l.toNat _ s) ?_⟩
    · rw [chunkCommands, runCommands_cons _ _ _ _ (exec_produce_of_inRange mode a l s h (by omega)), ht]
    · by_cases h0 : (lens.map BitVec.toNat).sum = 0
      · rw [h0, produce_zero] at hsame ⊢
        exact hsame
      · have ha : (a + l).toNat = a.toNat + l.toNat := by
          have := s.dmemSize.isLt
          rw [BitVec.toNat_add, Nat.mod_eq_of_lt (by omega)]
        rwa [ha] at hsame

end Sys2Proof.Machine
end

section
/-! PROOFS. What reaches the keystream and what a PRODUCE reaches (42_streaming.md R158, R159, 70_reset_and_hazards.md R245,
R246): a stale buffer, W, accessor writes, the number of blocks, and SEEK. -/

namespace Sys2Proof

open Sys2Proof.Machine

/-! ### A stale buffer (R158) -/

theorem SameButStaleBuffer.eq_setBuffer {s t : State} (h : SameButStaleBuffer s t) : t = s.setBuffer t.B s.pos := h.1

theorem SameButStaleBuffer.pos_eq {s t : State} (h : SameButStaleBuffer s t) : t.pos = s.pos := by rw [h.1]

theorem SameButStaleBuffer.eq_of_lt {s t : State} (h : SameButStaleBuffer s t) (hlt : s.pos.val < 64) : t = s := by
  rw [h.eq_setBuffer, h.2 hlt]
  rfl

/-- With nothing buffered a PRODUCE takes no byte from the buffer. -/
theorem SameButStaleBuffer.producedBytes {s t : State} (h : SameButStaleBuffer s t) (hp : ¬ s.pos.val < 64) (len : Nat) :
    producedBytes t len = producedBytes s len := by
  have hd : ∀ u : State, u.pos = s.pos → drainCount u len = 0 := fun u hu => by
    have := (drainCount_le u len).2
    rw [hu] at this
    omega
  have hkeystream : keystreamBytes t 0 len = keystreamBytes s 0 len := by rw [h.eq_setBuffer]; rfl
  simp only [Machine.producedBytes, hd s rfl, hd t h.pos_eq, List.take_zero, Nat.sub_zero, hkeystream]

/-- How far a PRODUCE goes is the same with a stale buffer. -/
theorem SameButStaleBuffer.streamedFrom {s t u : State} {n g : Nat} (h : SameButStaleBuffer s t)
    (ht : StreamedFrom t n g u) : StreamedFrom s n g u where
  position := h.pos_eq ▸ ht.position
  started := ht.started
  buffer := fun hlt => by
    rw [ht.buffer hlt]
    cases g with
    | zero =>
      have hp := ht.position
      rw [h.pos_eq] at hp
      rw [h.eq_of_lt (by omega)]
    | succ g => rw [h.eq_setBuffer]; rfl
  rest := ht.rest.trans (by rw [h.eq_setBuffer, generate_setBuffer]; rfl)

theorem SameButStaleBuffer.produce {s t : State} (h : SameButStaleBuffer s t) (mode : Mode) (addr len : Nat) :
    SameButStaleBuffer (produce mode addr len s) (produce mode addr len t) := by
  by_cases hp : s.pos.val < 64
  · rw [h.eq_of_lt hp]
    exact sameButStaleBuffer_refl _
  · obtain ⟨g, hs⟩ := streamedFrom_advanceStream len s
    obtain ⟨k, ht⟩ := streamedFrom_advanceStream len t
    have hdmem : t.dmem = s.dmem := by rw [h.1]
    rw [produce_eq_advanceStream, produce_eq_advanceStream, h.producedBytes hp, hdmem]
    exact sameButStaleBuffer_setDmem (hs.unique (h.streamedFrom ht)) _

/-- A command that neither writes the buffer nor moves the cursor does not read the buffer. -/
theorem effect_setBuffer (i : Instr) (s : State) (b : Block)
    (hi : i.opcode ∉ [.init, .clear, .ser, .gen, .flush, .produce]) :
    effect i (s.setBuffer b s.pos) = (effect i s).setBuffer b s.pos := by
  cases i with
  | init | clear | ser | gen | flush | produce => simp [Instr.opcode] at hi
  | _ => rfl

/-- Only PRODUCE reads the buffer. -/
theorem SameButStaleBuffer.effect {s t : State} (h : SameButStaleBuffer s t) (i : Instr) :
    SameButStaleBuffer (effect i s) (effect i t) := by
  by_cases hi : i.opcode ∉ [.init, .clear, .ser, .gen, .flush, .produce]
  · have hpos := effect_pos i s hi
    have hsub : [Opcode.init, .clear, .ser, .gen, .produce] ⊆ [.init, .clear, .ser, .gen, .flush, .produce] := by decide
    have hB : (Machine.effect i s).B = s.B := effect_B i s fun hm => hi (hsub hm)
    rw [h.eq_setBuffer, effect_setBuffer i s t.B hi, ← hpos]
    exact ⟨rfl, fun hlt => (h.2 (hpos ▸ hlt)).trans hB.symm⟩
  · have hrest := h.eq_setBuffer
    cases i with
    | produce m a l => exact h.produce m a.toNat l.toNat
    | init | clear | ser | gen =>
      rw [hrest]
      exact sameButStaleBuffer_refl _
    | flush => exact ⟨congrArg (Machine.effect .flush) hrest, fun hlt => absurd hlt (lt_irrefl 64)⟩
    | _ => simp [Instr.opcode] at hi

theorem SameButStaleBuffer.rejectCause {s t : State} (h : SameButStaleBuffer s t) (i : Instr) :
    rejectCause t i = rejectCause s i := by
  rw [h.eq_setBuffer]
  cases i <;> rfl

theorem SameButStaleBuffer.record {s t : State} (h : SameButStaleBuffer s t) (c : RejectCode) :
    SameButStaleBuffer (s.record c) (t.record c) :=
  ⟨congrArg (State.record · c) h.1, h.2⟩

theorem SameButStaleBuffer.exec {s t : State} (h : SameButStaleBuffer s t) (i : Instr) :
    RelatedOutcomes SameButStaleBuffer (exec i s) (exec i t) := by
  cases hc : Sys2Proof.rejectCause s i with
  | some c =>
    rw [exec_of_cause i s c hc, exec_of_cause i t c ((h.rejectCause i).trans hc)]
    exact h.record c
  | none =>
    rw [exec_of_no_cause i s hc, exec_of_no_cause i t ((h.rejectCause i).trans hc)]
    exact h.effect i

theorem sameButStaleBuffer_stepKeeps : StepKeeps SameButStaleBuffer where
  visible := fun ⟨h, _⟩ => by rw [h]; exact ⟨rfl, rfl, rfl, rfl, rfl⟩
  setParse := fun ⟨h, h'⟩ p => ⟨congrArg (fun u : State => { u with parse := p }) h, h'⟩
  setInput := fun ⟨h, h'⟩ xs => ⟨congrArg (fun u : State => { u with input := xs }) h, h'⟩
  setRespq := fun ⟨h, h'⟩ q => ⟨congrArg (fun u : State => { u with respq := q }) h, h'⟩
  setDmem := sameButStaleBuffer_setDmem
  record := SameButStaleBuffer.record
  hardReset := fun {s t} ⟨h, _⟩ => by
    have heq : hardReset t = hardReset s := (congrArg Machine.hardReset h).trans rfl
    exact heq ▸ sameButStaleBuffer_refl _
  exec := SameButStaleBuffer.exec

end Sys2Proof

namespace Sys2Proof.Machine

/-! ### What W holds (R246) -/

/-- A block generation overwrites W and does not read it. -/
theorem refill_setW (s : State) (X : Words) (p : Fin 65) : refill (s.setW X) p = refill s p := rfl

theorem generate_setW (k : Nat) (s : State) (X : Words) : ∃ Y, generate k (s.setW X) = (generate k s).setW Y := by
  cases k with
  | zero => exact ⟨X, rfl⟩
  | succ k => exact ⟨(generate (k + 1) s).W, rfl⟩

theorem bufferTail_setW (rem : Fin 64) (s : State) (X : Words) :
    ∃ Y, bufferTail rem (s.setW X) = (bufferTail rem s).setW Y := by
  unfold bufferTail
  split
  · exact ⟨X, rfl⟩
  · exact ⟨_, refill_setW s X _⟩

/-- A PRODUCE that generates a block overwrites W, any other leaves it. -/
theorem advanceStream_setW (len : Nat) (s : State) (X : Words) :
    ∃ Y, advanceStream len (s.setW X) = (advanceStream len s).setW Y := by
  obtain ⟨Y, hY⟩ := generate_setW ((len - drainCount s len) / 64) (advancePos len s) X
  obtain ⟨Z, hZ⟩ := bufferTail_setW ⟨(len - drainCount s len) % 64, Nat.mod_lt _ (by decide)⟩ _ Y
  exact ⟨Z, (congrArg (bufferTail _) hY).trans hZ⟩

theorem produce_setW (mode : Mode) (addr len : Nat) (s : State) (X : Words) :
    ∃ Y, produce mode addr len (s.setW X) = (produce mode addr len s).setW Y := by
  obtain ⟨Y, hY⟩ := advanceStream_setW len s X
  refine ⟨Y, ?_⟩
  rw [produce_eq_advanceStream, produce_eq_advanceStream, hY]
  rfl

/-! ### Accessor writes (R170, R172, R245) -/

/-- WRS and WRCTR, executed or rejected, keep what the first step of PRODUCE and its checks read. -/
theorem exec_accessorWrite_keeps (w : Instr) (s t : State)
    (hw : (∃ i v, w = .wrs i v) ∨ ∃ lo hi, w = .wrctr lo hi) (h : exec w s = .next t) :
    t.B = s.B ∧ t.pos = s.pos ∧ t.dmem = s.dmem ∧ t.dmemSize = s.dmemSize ∧ t.status.inited = s.status.inited := by
  obtain ⟨c, -, rfl⟩ | ⟨-, rfl⟩ := exec_next w s t h
  · exact ⟨rfl, rfl, rfl, rfl, rfl⟩
  · obtain ⟨i, v, rfl⟩ | ⟨lo, hi, rfl⟩ := hw
    · exact ⟨rfl, rfl, rfl, rfl, rfl⟩
    · exact ⟨rfl, rfl, rfl, rfl, rfl⟩

/-! ### The blocks of one PRODUCE (R159) -/

theorem bufferedBytes_eq_drainCount (s : State) (len : Nat) : bufferedBytes s len = drainCount s len := by
  unfold bufferedBytes drainCount
  split <;> omega

/-- The blocks generated are as many as the bytes beyond the buffered ones need. -/
theorem StreamedFrom.blocks {s t : State} {n g : Nat} (h : StreamedFrom s n g t) :
    g = (n - bufferedBytes s n + 63) / 64 := by
  have hp := h.position
  have hst := h.started
  rw [bufferedBytes_eq_drainCount, drainCount]
  omega

/-! ### SEEK (R176, R182) -/

theorem counterWords_low (v : BitVec 64) : (counterWords v).1 = BitVec.ofNat 32 v.toNat :=
  BitVec.eq_of_toNat_eq (by simp [counterWords])

theorem counterWords_high (v : BitVec 64) : (counterWords v).2 = BitVec.ofNat 32 (v.toNat / 2 ^ 32) :=
  BitVec.eq_of_toNat_eq (by simp [counterWords, Nat.shiftRight_eq_div_pow])

/-- WRCTR of a counter value of the layout's width puts the counter at that value. -/
theorem exec_wrctr_counterWords (s : State) (v : BitVec 64) (h : s.status.inited = true)
    (hv : v.toNat < counterModulus s.cfg.layout) :
    exec (.wrctr (counterWords v).1 (counterWords v).2) s = .next (s.setS (wordsAtCounter s v.toNat)) := by
  cases hl : s.cfg.layout with
  | djb =>
    rw [exec_wrctr_of_djb s _ _ h hl, counterWords_low, counterWords_high, wordsAtCounter, hl]
    rfl
  | ietf =>
    rw [hl] at hv
    have hdiv : v.toNat / 2 ^ 32 = 0 := Nat.div_eq_of_lt hv
    have hzero : (counterWords v).2 = 0 := by rw [counterWords_high, hdiv]; rfl
    rw [exec_wrctr_of_ietf s _ _ h hl, hzero, if_pos rfl, counterWords_low, wordsAtCounter, hl]
    rfl

theorem runCommands_seekCommands (s : State) (v : BitVec 64) (h : s.status.inited = true)
    (hv : v.toNat < counterModulus s.cfg.layout) :
    runCommands (seekCommands v) s = .next (effect .flush (s.setS (wordsAtCounter s v.toNat))) :=
  calc runCommands [.wrctr (counterWords v).1 (counterWords v).2, .flush] s
    _ = runCommands [.flush] (s.setS (wordsAtCounter s v.toNat)) :=
      runCommands_cons _ _ _ _ (exec_wrctr_counterWords s v h hv)
    _ = .next _ := runCommands_cons _ _ _ _ (whenInited_of_inited _ _ h)

/-- The first bytes after a SEEK are those of the block of that counter value. -/
theorem producedBytes_of_flushed (s : State) (v len : Nat) (h : len ≤ 64) :
    producedBytes (effect .flush (s.setS (wordsAtCounter s v))) len = (blockAt s v).toList.take len := by
  have hd : drainCount (effect .flush (s.setS (wordsAtCounter s v))) len = 0 := Nat.min_zero _
  rw [producedBytes, hd, List.take_zero, List.nil_append, Nat.sub_zero, keystreamBytes_of_blockFn _ _ h]
  rfl

end Sys2Proof.Machine

namespace Sys2Proof.Machine.Streaming

/-- Settles O42: the frame of the three steps, and the one run of bytes that they join to DMEM; a rejection leaves DMEM. -/
theorem produceChangesOnlyItsRange : Obligations.ProduceChangesOnlyItsRange := by
  intro s m a l hwf hi
  refine ⟨fun hr => ⟨_, exec_produce_of_inRange m a l s hi hr, fun b hb => ?_, ?_, ?_⟩, fun hr => ?_⟩
  · rw [produce_eq_advanceStream, State.setDmem_dmem,
      combineBytes_read_outside m _ s.dmem a.toNat b hwf (by rw [producedBytes_length]; exact hb)]
  · exact (produce_keeps m a.toNat l.toNat s).words
  · exact (produce_keeps m a.toNat l.toNat s).rest
  · exact ⟨_, exec_produce_of_outOfRange m a l s hi (not_le.mp hr), fun _ => rfl⟩

/-- Settles O44: the chunks all run and leave what the whole leaves but for a stale buffer. -/
theorem chunkingDoesNotMatter : Obligations.ChunkingDoesNotMatter := by
  intro s mode a total lens hi htotal hr
  rw [htotal] at hr
  obtain ⟨t, ht, hsame⟩ := runCommands_chunkCommands mode lens a s hi hr
  rw [← htotal] at hr hsame
  exact ⟨t, _, ht, exec_produce_of_inRange mode a total s hi hr, hsame.1, fun hlt => hsame.2 (hsame.pos_eq ▸ hlt)⟩

/-- Settles O46: a command that is not PRODUCE does not read the buffer, and PRODUCE reads none of it where POS = 64. -/
theorem staleBufferIsNeverHandedOut : Obligations.StaleBufferIsNeverHandedOut :=
  fun _ _ h => sameButStaleBuffer_stepKeeps.step h

/-- Settles O47: the blocks that a PRODUCE generates, by how far it goes, and the counter after them. -/
theorem produceAdvancesTheCounterByItsBlocks : Obligations.ProduceAdvancesTheCounterByItsBlocks := by
  intro s m a l hi hr
  obtain ⟨g, h⟩ := streamedFrom_advanceStream l.toNat s
  refine ⟨_, exec_produce_of_inRange m a l s hi hr, ?_⟩
  rw [produce_eq_advanceStream, ← h.blocks]
  exact h.counter.counterOf_eq

/-- Settles O48: WRS and WRCTR leave the buffer, POS and DMEM, which are all that the first step of PRODUCE reads. -/
theorem bufferedBytesSurviveAccessorWrites : Obligations.BufferedBytesSurviveAccessorWrites := by
  intro s t w m a l hi hw hx hr hl
  obtain ⟨hB, hpos, hdmem, hsize, hinited⟩ := exec_accessorWrite_keeps w s t hw hx
  refine ⟨_, _, exec_produce_of_inRange m a l s hi hr,
    exec_produce_of_inRange m a l t (hinited.trans hi) (hsize ▸ hr), ?_⟩
  rw [produce_of_buffered m _ _ s hl, produce_of_buffered m _ _ t (hpos ▸ hl)]
  simp only [drain, drainCount, hB, hpos, hdmem, and_self]

/-- Settles O49: SEEK puts the counter at `v` with nothing buffered, and PRODUCE hands out the block of that counter. -/
theorem seekPositionsAtTheStartOfABlock : Obligations.SeekPositionsAtTheStartOfABlock := by
  intro s v a l hi hv hr hl
  refine ⟨_, (runCommands_append _ _ _ _ (runCommands_seekCommands s v hi hv)).trans
    (runCommands_cons _ _ _ _ (exec_produce_of_inRange .copy a l _ hi hr)), ?_⟩
  rw [produce_eq_advanceStream, State.setDmem_dmem, producedBytes_of_flushed s v.toNat l.toNat hl]
  rfl

/-- Settles O50: GEN overwrites W without reading it, and PRODUCE overwrites it or leaves it. -/
theorem workingArrayDoesNotReachTheKeystream : Obligations.WorkingArrayDoesNotReachTheKeystream := by
  intro s X hi
  refine ⟨?_, fun m a l => ?_⟩
  · exact (exec_gen (s.setW X) hi).trans ((congrArg _ (refill_setW s X 0)).trans (exec_gen s hi).symm)
  · by_cases hr : a.toNat + l.toNat ≤ s.dmemSize.val
    · obtain ⟨Y, hY⟩ := produce_setW m a.toNat l.toNat s X
      refine ⟨_, _, exec_produce_of_inRange m a l (s.setW X) hi hr, exec_produce_of_inRange m a l s hi hr, ?_⟩
      rw [hY]
      rfl
    · exact ⟨_, _, exec_produce_of_outOfRange m a l (s.setW X) hi (not_le.mp hr),
        exec_produce_of_outOfRange m a l s hi (not_le.mp hr), rfl⟩

end Sys2Proof.Machine.Streaming
end

section
/-! PROOFS. What the host composes (43_state_access.md R180 to R184, 44_control.md R196): the byte conversions, and the
construction sequence as writes of single state words. -/

namespace Sys2Proof.Machine

/-! ### Bytes of a word (R53) -/

theorem le32_toNat (b0 b1 b2 b3 : Byte) :
    (le32 b0 b1 b2 b3).toNat = ((b3.toNat * 2 ^ 8 + b2.toNat) * 2 ^ 8 + b1.toNat) * 2 ^ 8 + b0.toNat := by
  simp only [le32, toNat_append_add]

/-- The four bytes of `LE32`, the first one lowest. -/
theorem le32_bytes (b0 b1 b2 b3 : Byte) :
    (le32 b0 b1 b2 b3).extractLsb' 0 8 = b0 ∧ (le32 b0 b1 b2 b3).extractLsb' 8 8 = b1
      ∧ (le32 b0 b1 b2 b3).extractLsb' 16 8 = b2 ∧ (le32 b0 b1 b2 b3).extractLsb' 24 8 = b3 := by
  simp only [← BitVec.toNat_inj, BitVec.extractLsb'_toNat, le32_toNat, Nat.shiftRight_eq_div_pow]
  omega

theorem bytesLE_le32 (b0 b1 b2 b3 : Byte) : bytesLE (le32 b0 b1 b2 b3) = [b0, b1, b2, b3] := by
  obtain ⟨h0, h1, h2, h3⟩ := le32_bytes b0 b1 b2 b3
  rw [bytesLE, h0, h1, h2, h3]

theorem le32_of_bytesLE (w : Word) :
    le32 (w.extractLsb' 0 8) (w.extractLsb' 8 8) (w.extractLsb' 16 8) (w.extractLsb' 24 8) = w := by
  refine BitVec.eq_of_toNat_eq ?_
  simp only [le32_toNat, BitVec.extractLsb'_toNat, Nat.shiftRight_eq_div_pow]
  omega

@[simp] theorem bytesLE_length (w : Word) : (bytesLE w).length = 4 := rfl

theorem bytesLE_getElem? (w : Word) (j : Fin 4) : (bytesLE w)[j.val]? = some (w.extractLsb' (8 * j.val) 8) := by
  revert j
  simp [Fin.forall_fin_succ, bytesLE]

/-! ### The byte conversions (R180) -/

theorem wordsToBytes_length (ws : List Word) : (wordsToBytes ws).length = 4 * ws.length := by
  induction ws with
  | nil => rfl
  | cons w ws ih => rw [wordsToBytes_cons, List.length_append, ih, bytesLE_length, List.length_cons]; omega

theorem wordsToBytes_getElem? (ws : List Word) (i : Nat) (j : Fin 4) (h : i < ws.length) :
    (wordsToBytes ws)[4 * i + j.val]? = some (ws[i].extractLsb' (8 * j.val) 8) := by
  induction ws generalizing i with
  | nil => simp at h
  | cons w ws ih =>
    rw [wordsToBytes_cons]
    cases i with
    | zero =>
      rw [List.getElem?_append_left (by simp), Nat.mul_zero, Nat.zero_add, bytesLE_getElem?]
      rfl
    | succ i =>
      have hidx : 4 * (i + 1) + j.val - (bytesLE w).length = 4 * i + j.val := by rw [bytesLE_length]; omega
      rw [List.getElem?_append_right (by rw [bytesLE_length]; omega), hidx, ih i (by simpa using h)]
      rfl

theorem bytesToWords_bytesLE_append (w : Word) (bs : List Byte) :
    bytesToWords (bytesLE w ++ bs) = (bytesToWords bs).map (w :: ·) := by
  have hw := bytesToWords_cons (w.extractLsb' 0 8) (w.extractLsb' 8 8) (w.extractLsb' 16 8) (w.extractLsb' 24 8) bs
  rwa [le32_of_bytesLE] at hw

theorem bytesToWords_wordsToBytes (ws : List Word) : bytesToWords (wordsToBytes ws) = some ws := by
  induction ws with
  | nil => rfl
  | cons w ws ih => rw [wordsToBytes_cons, bytesToWords_bytesLE_append, ih, Option.map_some]

theorem wordsToBytes_of_bytesToWords (bs : List Byte) (ws : List Word) (h : bytesToWords bs = some ws) :
    wordsToBytes ws = bs := by
  induction bs using bytesToWords.induct generalizing ws with
  | case1 => simp at h; subst h; rfl
  | case2 b0 b1 b2 b3 bs ih =>
    rw [bytesToWords_cons, Option.map_eq_some_iff] at h
    obtain ⟨vs, hvs, rfl⟩ := h
    rw [wordsToBytes_cons, bytesLE_le32, ih vs hvs]
    rfl
  | case3 bs hnil hcons => simp [bytesToWords] at h

theorem bytesToWords_eq_none_iff (bs : List Byte) : bytesToWords bs = none ↔ bs.length % 4 ≠ 0 := by
  induction bs using bytesToWords.induct with
  | case1 => simp
  | case2 b0 b1 b2 b3 bs ih =>
    rw [bytesToWords_cons, Option.map_eq_none_iff, ih]
    simp only [List.length_cons]
    omega
  | case3 bs hnil hcons =>
    have hlen : bs.length % 4 ≠ 0 := by
      match bs, hnil, hcons with
      | [_], _, _ | [_, _], _, _ | [_, _, _], _, _ => simp
      | _ :: _ :: _ :: _ :: _, _, hcons => exact absurd rfl (hcons _ _ _ _ _)
    simp [bytesToWords, hlen]

/-! ### Values read from DMEM (R184) -/

theorem readU32_byte (m : Memory) (a : Nat) (j : Fin 4) :
    (readU32 m a).extractLsb' (8 * j.val) 8 = Memory.read m (a + j.val) := by
  obtain ⟨h0, h1, h2, h3⟩ := le32_bytes (Memory.read m a) (Memory.read m (a + 1)) (Memory.read m (a + 2))
    (Memory.read m (a + 3))
  match j with
  | 0 => exact h0
  | 1 => exact h1
  | 2 => exact h2
  | 3 => exact h3

theorem readU64_byte (m : Memory) (a : Nat) (j : Fin 8) :
    (readU64 m a).extractLsb' (8 * j.val) 8 = Memory.read m (a + j.val) := by
  by_cases hj : j.val < 4
  · rw [readU64, BitVec.extractLsb'_append_eq_of_add_le (by omega)]
    exact readU32_byte m a ⟨j.val, hj⟩
  · have hbit : 8 * j.val - 32 = 8 * (j.val - 4) := by omega
    have haddr : a + 4 + (j.val - 4) = a + j.val := by omega
    rw [readU64, BitVec.extractLsb'_append_eq_of_le (by omega), hbit, ← haddr]
    exact readU32_byte m (a + 4) ⟨j.val - 4, by omega⟩

/-! ### Commands that write single state words -/

theorem runCommands_wrs (ws : List (Index × Word)) (s : State) (h : s.status.inited = true) :
    runCommands (ws.map fun p => .wrs p.1 p.2) s = .next (s.setS (ws.foldl (fun X p => X.set p.1 p.2) s.S)) := by
  induction ws generalizing s with
  | nil => rfl
  | cons p ws ih =>
    have hp : exec (.wrs p.1 p.2) s = .next (s.writeS p.1 p.2) := whenInited_of_inited s _ h
    rw [List.map_cons, runCommands_cons _ _ _ _ hp, ih (s.writeS p.1 p.2) h]
    rfl

/-- The writes of consecutive state words, from `base` on, with the words of a byte string. -/
def wordWrites (base : Nat) {n : Nat} (b : Vector Byte (4 * n)) (h : base + n ≤ 16) : List (Index × Word) :=
  (List.finRange n).map fun j => (⟨base + j.val, by omega⟩, wordOfBytes b j)

theorem setKeyCommands_eq (k : Vector Byte 32) :
    setKeyCommands k = (wordWrites 4 (n := 8) k (by decide)).map fun p => .wrs p.1 p.2 := by
  rw [wordWrites, List.map_map]
  rfl

theorem setNonceDjbCommands_eq (n : Vector Byte 8) :
    setNonceDjbCommands n = (wordWrites 14 (n := 2) n (by decide)).map fun p => .wrs p.1 p.2 := by
  rw [wordWrites, List.map_map]
  rfl

theorem setNonceIetfCommands_eq (n : Vector Byte 12) :
    setNonceIetfCommands n = (wordWrites 13 (n := 3) n (by decide)).map fun p => .wrs p.1 p.2 := by
  rw [wordWrites, List.map_map]
  rfl

/-- INIT, any WRS commands and SETCTR leave the constructed state with those words and the counter. -/
theorem runCommands_construction (l : Layout) (r : BitVec 8) (ws : List (Index × Word)) (v : BitVec 64) (s : State)
    (hr : r.toNat ∈ [8, 12, 20]) (hv : v.toNat < counterModulus l) :
    runCommands (.init l r :: ws.map (fun p => .wrs p.1 p.2) ++ setCtrCommands v) s
      = .next ((construct l r s).setS (wordsAtCounter ((construct l r s).setS
          (ws.foldl (fun X p => X.set p.1 p.2) initialWords)) v.toNat)) := by
  have hinit : runCommands (.init l r :: ws.map (fun p => .wrs p.1 p.2)) s
      = .next ((construct l r s).setS (ws.foldl (fun X p => X.set p.1 p.2) initialWords)) :=
    (runCommands_cons _ _ _ _ (exec_init_of_accepted l r s hr)).trans (runCommands_wrs ws (construct l r s) rfl)
  rw [runCommands_append _ _ _ _ hinit]
  exact runCommands_cons _ _ _ _ (exec_wrctr_counterWords _ v rfl hv)

end Sys2Proof.Machine

namespace Sys2Proof.Machine.StateAccess

/-- Settles O58: a word is its four bytes, lowest first, and a byte string is taken four bytes at a time. -/
theorem byteConversionsAreLittleEndian : Obligations.ByteConversionsAreLittleEndian :=
  ⟨wordsToBytes_length, wordsToBytes_getElem?, bytesToWords_wordsToBytes, wordsToBytes_of_bytesToWords,
    bytesToWords_eq_none_iff, readU32_byte, readU64_byte⟩

/-- Settles O51: the writes after INIT go to different words of S, and WRCTR puts the counter at its value. -/
theorem constructionSequenceSetsTheState : Obligations.ConstructionSequenceSetsTheState := by
  refine ⟨le32_bytes, fun s r k n v hr => ?_, fun s r k n v hr hv => ?_⟩
  · have hrun := runCommands_construction .djb r
      (wordWrites 4 (n := 8) k (by decide) ++ wordWrites 14 (n := 2) n (by decide)) v s hr v.isLt
    rw [List.map_append, ← setKeyCommands_eq, ← setNonceDjbCommands_eq, ← List.cons_append] at hrun
    refine ⟨_, hrun, ?_, rfl, rfl, rfl, rfl⟩
    rw [State.setS_S, wordsAtCounter, State.setS_cfg, construct_cfg, ← counterWords_low, ← counterWords_high]
    rfl
  · have hrun := runCommands_construction .ietf r
      (wordWrites 4 (n := 8) k (by decide) ++ wordWrites 13 (n := 3) n (by decide)) v s hr hv
    rw [List.map_append, ← setKeyCommands_eq, ← setNonceIetfCommands_eq, ← List.cons_append] at hrun
    refine ⟨_, hrun, ?_, rfl, rfl, rfl, rfl⟩
    rw [State.setS_S, wordsAtCounter, State.setS_cfg, construct_cfg, ← counterWords_low]
    rfl

end Sys2Proof.Machine.StateAccess
end
